-- ==== Sys2Proof/Word.lean ====
section
/-!
DEFINITION. The words of CORE (00_scope.md rules R2, R3): message and output bytes, 64-bit lanes, the 25 lanes
together, and the 32-bit command word. Nothing in this block is signed.
-/

namespace Sys2Proof

/-- A message byte, an output byte or one byte of the state-byte space (rule R3). -/
abbrev Byte := BitVec 8

/-- One lane of the sponge state: 64 bits, unsigned (rules R2, R3, R10). -/
abbrev Lane := BitVec 64

/-- A command word (rules R3, R31). -/
abbrev Word32 := BitVec 32

/-- The 25 lanes `A[0]` to `A[24]` (rules R4, R10): lane `i` has column `i mod 5` and row `i div 5`. -/
abbrev Lanes := Vector Lane 25

/-- The 25 lanes, all zero: what START writes (rule R51). -/
abbrev Lanes.zero : Lanes := Vector.replicate 25 0

end Sys2Proof
end

