-- ==== Sys2Proof/Syntax.lean ====
section
/-!
DEFINITION. The commands of `SBCORE-1`, one constructor per row of spec/opcode_table.json (30_encoding.md section 5),
and what a host can do to one instance (70_reset_and_hazards.md rule R93).
-/

namespace Sys2Proof

/-- The commands. Every operand has the width of its field (30_encoding.md rules R32 to R35), so each value of this
type is the meaning of exactly one command word. -/
inductive Instr where
  /-- `START variant` (rule R51): ids 0 to 5 select a row of `VROM`, 6 and 7 are encodable and never accepted. -/
  | start (variant : BitVec 3)
  /-- `UPDATE.0` (rule R56): no message byte. -/
  | update0
  /-- `UPDATE.1` (rule R57). -/
  | update1 (b0 : BitVec 8)
  /-- `UPDATE.2` (rule R58): `b0` is absorbed first. -/
  | update2 (b0 b1 : BitVec 8)
  /-- `UPDATE.3` (rule R59): `b0`, `b1`, `b2` in this order. -/
  | update3 (b0 b1 b2 : BitVec 8)
  /-- `FINISH outlen` (rule R62): the length asked for, in bytes. -/
  | finish (outlen : BitVec 22)
deriving DecidableEq, Repr

/-- One action of the host (rule R93): it presents a command word, or it pulses `rst` between commands (rules R39, R86). -/
inductive HostAction where
  /-- A word transferred on the command port (rule R30). -/
  | word (w : Word32)
  /-- The directive `RESET` (rule R39). -/
  | reset
deriving DecidableEq, Repr

end Sys2Proof
end

