-- ==== Sys2Proof/WellFormed.lean ====
section
/-!
DEFINITION. Which command words are well formed, written from 30_encoding.md rule R37, check by check. A value of
`Instr` needs no check of its own: every operand has exactly its field's width. `Decode.lean` is written from the
opcode map (rule R36) instead; that the two agree is a statement, not a definition.
-/

namespace Sys2Proof

/-- The field `op`, bits 31..28 (rule R31). -/
abbrev opField (w : Word32) : BitVec 4 := w.extractLsb' 28 4

/-- The field `cnt`, bits 27..26 of format U (rule R33). -/
abbrev cntField (w : Word32) : BitVec 2 := w.extractLsb' 26 2

/-- Rule R37: the word's `op` is that of a command (1 START, 2 UPDATE, 3 FINISH). -/
def opIsCommand (w : Word32) : Bool :=
  opField w == 1 || opField w == 2 || opField w == 3

/-- Rule R37: the reserved bits of the word's format are zero: bits 27..3 of format S, bits 25..24 of format U,
bits 27..22 of format F. -/
def reservedBitsZero (w : Word32) : Bool :=
  if opField w = 1 then w.extractLsb' 3 25 == 0
  else if opField w = 2 then w.extractLsb' 24 2 == 0
  else if opField w = 3 then w.extractLsb' 22 6 == 0
  else true

/-- Rule R33: in format U "a byte field at position `cnt` or above must be 0". -/
def unusedBytesZero (w : Word32) : Bool :=
  if opField w = 2 then
    (decide (1 ≤ (cntField w).toNat) || w.extractLsb' 0 8 == 0) &&
    (decide (2 ≤ (cntField w).toNat) || w.extractLsb' 8 8 == 0) &&
    (decide (3 ≤ (cntField w).toNat) || w.extractLsb' 16 8 == 0)
  else true

/-- A word is well formed when it is a command and none of the reasons of rule R37 holds. -/
def wordWellFormed (w : Word32) : Bool :=
  opIsCommand w && reservedBitsZero w && unusedBytesZero w

end Sys2Proof
end

