-- ==== Sys2Proof/Decode.lean ====
section
/-!
DEFINITION. Decoding (30_encoding.md rules R35, R36): total on 32-bit words, by the opcode map of section 5; and the
encoder, written from the formats (rules R32 to R34). Decoding looks at the word only, never at the state.
-/

namespace Sys2Proof

/-- What a word decodes to (rule R36): a command, or ILLEGAL. -/
inductive Decoded where
  | command (i : Instr)
  /-- ILLEGAL: the word matches no row of the opcode map (rules R36, R37); it is answered with IllegalCommand (rule R76). -/
  | illegal
deriving DecidableEq, Repr

/-- Operand assembly (rule R35): `variant = w[2:0]`. -/
def variantOperand (w : Word32) : BitVec 3 := w.extractLsb' 0 3

/-- Operand assembly (rule R35): `b0 = w[7:0]`. -/
def b0Operand (w : Word32) : BitVec 8 := w.extractLsb' 0 8

/-- Operand assembly (rule R35): `b1 = w[15:8]`. -/
def b1Operand (w : Word32) : BitVec 8 := w.extractLsb' 8 8

/-- Operand assembly (rule R35): `b2 = w[23:16]`. -/
def b2Operand (w : Word32) : BitVec 8 := w.extractLsb' 16 8

/-- Operand assembly (rule R35): `outlen = w[21:0]`, in bytes. -/
def outlenOperand (w : Word32) : BitVec 22 := w.extractLsb' 0 22

/-- One row of the opcode map (30_encoding.md section 5). -/
structure OpcodeRow where
  mnemonic : String
  mask : Word32
  pattern : Word32
  read : Word32 → Instr

/-- The opcode map, row by row as 30_encoding.md section 5 prints it. -/
def opcodeMap : List OpcodeRow := [
  ⟨"START",    0xFFFFFFF8, 0x10000000, fun w => .start (variantOperand w)⟩,
  ⟨"UPDATE.0", 0xFFFFFFFF, 0x20000000, fun _ => .update0⟩,
  ⟨"UPDATE.1", 0xFFFFFF00, 0x24000000, fun w => .update1 (b0Operand w)⟩,
  ⟨"UPDATE.2", 0xFFFF0000, 0x28000000, fun w => .update2 (b0Operand w) (b1Operand w)⟩,
  ⟨"UPDATE.3", 0xFF000000, 0x2C000000, fun w => .update3 (b0Operand w) (b1Operand w) (b2Operand w)⟩,
  ⟨"FINISH",   0xFFC00000, 0x30000000, fun w => .finish (outlenOperand w)⟩]

/-- Rule R36: a word is a row's command when `(w AND mask) = match`; the first such row of a list, else ILLEGAL. -/
def decodeBy (w : Word32) : List OpcodeRow → Decoded
  | [] => .illegal
  | r :: rows => if w &&& r.mask = r.pattern then .command (r.read w) else decodeBy w rows

/-- Decoding (rule R36): by the opcode map. -/
def decode (w : Word32) : Decoded := decodeBy w opcodeMap

/-- The word of a command, field by field, most significant first: format S (rule R32), format U (rule R33), format F
(rule R34). -/
def encode : Instr → Word32
  | .start v => (1 : BitVec 4) ++ (0 : BitVec 25) ++ v
  | .update0 => (2 : BitVec 4) ++ (0 : BitVec 2) ++ (0 : BitVec 2) ++ (0 : BitVec 8) ++ (0 : BitVec 8) ++ (0 : BitVec 8)
  | .update1 b0 => (2 : BitVec 4) ++ (1 : BitVec 2) ++ (0 : BitVec 2) ++ (0 : BitVec 8) ++ (0 : BitVec 8) ++ b0
  | .update2 b0 b1 => (2 : BitVec 4) ++ (2 : BitVec 2) ++ (0 : BitVec 2) ++ (0 : BitVec 8) ++ b1 ++ b0
  | .update3 b0 b1 b2 => (2 : BitVec 4) ++ (3 : BitVec 2) ++ (0 : BitVec 2) ++ b2 ++ b1 ++ b0
  | .finish n => (3 : BitVec 4) ++ (0 : BitVec 6) ++ n

/-- The 32-bit word of a row's low `nbits` bits, all higher bits zero. -/
def tableWord (nbits w : Nat) : Word32 := BitVec.ofNat 32 (w % 2 ^ nbits)

/-- What the decoder reads from a word given as the opcode table numbers its bits: a command is one 32-bit value, so
the table's numbering is the word's own (rules R3, R23, R31). -/
def decodeTableWord (nbits w : Nat) : Option Instr :=
  match decode (tableWord nbits w) with
  | .command i => some i
  | .illegal => none

end Sys2Proof
end

