-- ==== Sys2Proof/Machine/State.lean ====
section
/-!
DEFINITION. The state of one CORE instance (10_state.md), the responses (60_exceptions.md rule R71), the reasons a step
can stop, and the state after reset (70_reset_and_hazards.md rules R86, R87).
-/

namespace Sys2Proof.Machine

/-- `PHASE`, the lifecycle state (rule R16); its 2-bit encoding is `Phase.code` (Machine/Operands.lean). -/
inductive Phase where
  | uninitialized
  | started
  | absorbing
  | finished
deriving DecidableEq, Repr

/-- The response to one command word (rules R70, R71): five members, since codes 5, 6 and 7 are never produced
(93_implementation_defined.md U8). The 3-bit codes are `Rsp.code` (Machine/Operands.lean). -/
inductive Rsp where
  | ok
  | invalidOutputLength
  | invalidVariant
  | protocolViolation
  | illegalCommand
deriving DecidableEq, Repr

/-- The sponge context: the lanes, the bound variant parameters and the absorption index (rules R10, R17, R18). The
state-byte space (rule R20) is a second view of `lanes` and is stored nowhere else. -/
structure Context where
  /-- `A[0..24]` (rule R10) -/
  lanes : Lanes
  /-- `RATE`, in bytes (rule R17) -/
  rate : BitVec 8
  /-- `FOUT`, in bytes, 0 for an XOF (rule R17) -/
  fout : BitVec 7
  /-- `DSFX` (rule R17) -/
  dsfx : BitVec 8
  /-- `IDX` (rule R18) -/
  idx : BitVec 8
deriving DecidableEq, Repr

/-- The state of one instance, its output and response logs, and the host's remaining actions. -/
structure State where
  /-- `PHASE` (rule R16) -/
  phase : Phase
  /-- the lanes and the four other control registers -/
  ctx : Context
  /-- `OUT`: the bytes emitted since reset, first byte first (rule R20); no rule reads it -/
  out : List Byte
  /-- the responses given, one per command word, oldest first (rules R71, R93) -/
  rsps : List Rsp
  /-- the host's actions not yet presented, next one first (rules R19, R93) -/
  pending : List HostAction
  /-- `cp`: how many actions the host has presented (rule R19) -/
  cp : Nat
  /-- the model's own counter of `rst` pulses, which selects the free contents after a pulse (log 2) -/
  resets : Nat
deriving DecidableEq, Repr

/-- Why a step stops. The block itself never does (rule R7: `Step` is total). -/
inductive Fault where
  /-- Raised by UPDATE.1, UPDATE.2, UPDATE.3 and FINISH when they would work on a context with `IDX ≥ RATE` or
  `RATE > 200`: AbsorbByte and SqueezeByte are "Defined only when" `IDX < RATE` (rule R55). No run from reset has such a
  context in phase 1 or 2 (rules R17, R18). Safe: the model stops in states the block is never in (log 5). -/
  | cursorOutsideRate
deriving DecidableEq, Repr

/-- Why the model gives no meaning. -/
inductive Refusal where
  /-- Raised by an arm of `exec` for an instruction without a meaning yet; no arm is left so. Safe. -/
  | notModelled (mnemonic : String)
  /-- Raised by the chip of NCTX instances (Machine/Chip.lean) when a step is asked of an instance it does not have.
  Safe: it says nothing of any instance the chip has (rule R83). -/
  | noSuchCore
deriving DecidableEq, Repr

/-- The context right after power-on. The spec gives the lanes, `RATE`, `FOUT`, `DSFX` and `IDX` no value (rule R87:
"unspecified"); all zero is the model's DESIGN CHOICE (log 1), unsafe; no statement rests on it. -/
def Context.reset : Context where
  lanes := Lanes.zero
  rate := 0
  fout := 0
  dsfx := 0
  idx := 0

/-- The machine right after reset (rules R86, R87): `PHASE` = 0 (Uninitialized), `OUT` empty, no response given, the
host's `cp` = 0 (rule R19) and nothing presented yet (log 3). -/
def State.reset : State where
  phase := .uninitialized
  ctx := Context.reset
  out := []
  rsps := []
  pending := []
  cp := 0
  resets := 0

end Sys2Proof.Machine
end

