-- ==== Sys2Proof/Machine/Flags.lean ====
section
/-!
DEFINITION. The block has no flags and no condition codes (10_state.md section 5). What stands in their place are the
conditions the controller tests: the phase check (60_exceptions.md rule R84), the wrap of the cursor (42_absorb.md rule
R55, 43_finish.md rule R61), and the precondition of the byte operations (rule R55).
-/

namespace Sys2Proof.Machine

/-- UPDATE and FINISH are legal in phases 1 and 2 (rules R56, R62, R84). -/
def Phase.holdsContext : Phase → Bool
  | .started => true
  | .absorbing => true
  | .uninitialized => false
  | .finished => false

/-- The table of rule R84, before any operand check: the phase an accepted command leaves; `none` where the table has no edge
(ProtocolViolation). The meanings make the check themselves; statements compare them with this table. -/
def lifecycle : Instr → Phase → Option Phase
  | .start _, .uninitialized => some .started
  | .start _, .started | .start _, .absorbing | .start _, .finished => none
  | .update0, .started => some .started
  | .update0, .absorbing => some .absorbing
  | .update0, .uninitialized | .update0, .finished => none
  | .update1 _, .started | .update1 _, .absorbing => some .absorbing
  | .update1 _, .uninitialized | .update1 _, .finished => none
  | .update2 _ _, .started | .update2 _ _, .absorbing => some .absorbing
  | .update2 _ _, .uninitialized | .update2 _ _, .finished => none
  | .update3 _ _ _, .started | .update3 _ _ _, .absorbing => some .absorbing
  | .update3 _ _ _, .uninitialized | .update3 _ _ _, .finished => none
  | .finish _, .started | .finish _, .absorbing => some .finished
  | .finish _, .uninitialized | .finish _, .finished => none

/-- The cursor wrapped: "if IDX = 0" after an increment (rules R55, R61). -/
def Context.wrapped (c : Context) : Bool := c.idx == 0

/-- The precondition of AbsorbByte and SqueezeByte (rule R55; invariants of rules R17, R18): `IDX < RATE`, and the rate
region lies in the state-byte space (rule R25). -/
def Context.inRange (c : Context) : Bool := decide (c.idx.toNat < c.rate.toNat) && decide (c.rate.toNat ≤ 200)

end Sys2Proof.Machine
end

