-- ==== Sys2Proof/Config.lean ====
section
/-!
DEFINITION. What an implementation fixes (92_eei_decisions.md: the open parameters), and the free values: what the
spec leaves unspecified and the machine goes on with (93_implementation_defined.md U7).
-/

namespace Sys2Proof

/-- The open parameters of the one-instance model (92_eei_decisions.md D9): the bounds of an XOF's output length, in
bytes, both ends allowed. The spec's values are `Machine.sbcore1`; `Machine.finishWith` takes any `Config`. -/
structure Config where
  /-- `OUTLEN_MIN` -/
  outlenMin : Nat
  /-- `OUTLEN_MAX` -/
  outlenMax : Nat
deriving DecidableEq, Repr

/-- The only constraints on the parameters: `1 ≤ OUTLEN_MIN ≤ OUTLEN_MAX < 2^22` (92_eei_decisions.md D9). -/
abbrev Config.Valid (cfg : Config) : Prop :=
  1 ≤ cfg.outlenMin ∧ cfg.outlenMin ≤ cfg.outlenMax ∧ cfg.outlenMax < 2 ^ 22

/-- Free value (log 2, DESIGN CHOICE of form, no value chosen): what the lanes hold after the `n`-th `rst` pulse.
Rule R87: "they may hold anything, including what the previous context left". Safe for one instance: no proof can see it;
for two instances with equally many pulses see log 2. -/
opaque Config.freeLanes : Nat → Lanes

/-- Free value (log 2): what `RATE` holds after the `n`-th `rst` pulse (rule R87). Safe. -/
opaque Config.freeRate : Nat → BitVec 8

/-- Free value (log 2): what `FOUT` holds after the `n`-th `rst` pulse (rule R87). Safe. -/
opaque Config.freeFout : Nat → BitVec 7

/-- Free value (log 2): what `DSFX` holds after the `n`-th `rst` pulse (rule R87). Safe. -/
opaque Config.freeDsfx : Nat → BitVec 8

/-- Free value (log 2): what `IDX` holds after the `n`-th `rst` pulse (rule R87). Safe. -/
opaque Config.freeIdx : Nat → BitVec 8

end Sys2Proof
end

