-- ==== Sys2Proof/Machine/Rom.lean ====
section
/-!
DEFINITION. The read-only tables of 10_state.md section 4: `VROM` (rule R11), `RC` (R12), `RHO` (R13), `PI` (R14),
`PILN` and `ROTC` (R15), and the default parameters (rule R64). No command writes them and reset does not change them.
-/

namespace Sys2Proof.Machine

/-- One entry of `VROM`, the immutable record of rule R11 (29 bits: 11, 10 and 8). -/
structure Descriptor where
  rateBits : BitVec 11
  /-- 0 means "caller-specified", an XOF -/
  fixedOutputBits : BitVec 10
  domainSuffixByte : BitVec 8
deriving DecidableEq, Repr

/-- `VROM` (rule R11): ids 0 to 5 in the order SHAKE128, SHAKE256, SHA3-224, SHA3-256, SHA3-384, SHA3-512; there is no
entry for ids 6 and 7. -/
def vrom : List Descriptor := [
  ⟨1344,   0, 0x1F⟩,
  ⟨1088,   0, 0x1F⟩,
  ⟨1152, 224, 0x06⟩,
  ⟨1088, 256, 0x06⟩,
  ⟨ 832, 384, 0x06⟩,
  ⟨ 576, 512, 0x06⟩]

/-- The table of rule R12 as 10_state.md section 4.2 prints it: line `k` holds `RC[k]` and, beside it, `RC[k + 12]`. -/
def roundConstantLines : Vector (Lane × Lane) 12 := #v[
  (0x0000000000000001, 0x000000008000808B),
  (0x0000000000008082, 0x800000000000008B),
  (0x800000000000808A, 0x8000000000008089),
  (0x8000000080008000, 0x8000000000008003),
  (0x000000000000808B, 0x8000000000008002),
  (0x0000000080000001, 0x8000000000000080),
  (0x8000000080008081, 0x000000000000800A),
  (0x8000000000008009, 0x800000008000000A),
  (0x000000000000008A, 0x8000000080008081),
  (0x0000000000000088, 0x8000000000008080),
  (0x0000000080008009, 0x0000000080000001),
  (0x000000008000000A, 0x8000000080008008)]

/-- The round constants `RC[0..23]` (rule R12), read from the two columns of the table. -/
def roundConstants : Vector Lane 24 := Vector.ofFn fun ir : Fin 24 =>
  let line := roundConstantLines[ir.val % 12]'(by omega)
  if ir.val < 12 then line.1 else line.2

/-- The rotation offsets `RHO[0..24]` (rule R13), row by row. -/
def rotationOffsets : Vector Nat 25 := #v[
   0,  1, 62, 28, 27,
  36, 44,  6, 55, 20,
   3, 10, 43, 25, 39,
  41, 45, 15, 21,  8,
  18,  2, 61, 56, 14]

/-- The lane permutation `PI[0..24]` (rule R14): the content of lane `i` moves to lane `PI[i]`. -/
def laneDestinations : Vector (Fin 25) 25 := #v[
  0, 10, 20, 5, 15, 16, 1, 11, 21, 6, 7, 17, 2, 12, 22, 23, 8, 18, 3, 13, 14, 24, 9, 19, 4]

/-- The inverse table `PIINV[0..24]` (rule R14): which source lane ends at destination `j`. -/
def laneSources : Vector (Fin 25) 25 := #v[
  0, 6, 12, 18, 24, 3, 9, 10, 16, 22, 1, 7, 13, 19, 20, 4, 5, 11, 17, 23, 2, 8, 14, 15, 21]

/-- `PILN[0..23]` (rule R15): the lane written at step `k` of the fused walk. -/
def walkLanes : Vector (Fin 25) 24 := #v[
  10, 7, 11, 17, 18, 3, 5, 16, 8, 21, 24, 4, 15, 23, 19, 13, 12, 2, 20, 14, 22, 9, 6, 1]

/-- `ROTC[0..23]` (rule R15): the rotation of the lane being moved at step `k` of the fused walk. -/
def walkRotations : Vector Nat 24 := #v[
  1, 3, 6, 10, 15, 21, 28, 36, 45, 55, 2, 14, 27, 41, 56, 8, 25, 43, 62, 18, 39, 61, 20, 44]

/-- The parameters of `SBCORE-1` (rule R64): `OUTLEN_MIN` = 1 byte, `OUTLEN_MAX` = 2^21 = 2,097,152 bytes (log 7). -/
def sbcore1 : Config where
  outlenMin := 1
  outlenMax := 2097152

end Sys2Proof.Machine
end

