-- ==== Sys2Proof/Machine/Operands.lean ====
section
/-!
DEFINITION. What the operands and the control registers encode: the phase encoding (10_state.md rule R16), the
response codes (60_exceptions.md rule R71), the variant operand (41_variant_rom_start.md rule R50) and the output
length (43_finish.md rule R64). The bit fields of a word are in Decode.lean (rule R35).
-/

namespace Sys2Proof.Machine

/-- The 2-bit encoding of `PHASE` (rule R16); all four values are legal. -/
def Phase.code : Phase → BitVec 2
  | .uninitialized => 0
  | .started => 1
  | .absorbing => 2
  | .finished => 3

/-- The 3-bit response codes (rule R71). -/
def Rsp.code : Rsp → BitVec 3
  | .ok => 0
  | .invalidOutputLength => 1
  | .invalidVariant => 2
  | .protocolViolation => 3
  | .illegalCommand => 4

/-- VariantLookup (rule R50): the id is the ROM address; ids 6 and 7 have no entry. -/
def variantLookup (v : BitVec 3) : Option Descriptor := vrom[v.toNat]?

/-- `rateBytes = rateBits / 8` (rule R17), as the 8-bit `RATE`. -/
def Descriptor.rateBytes (d : Descriptor) : BitVec 8 := BitVec.ofNat 8 (d.rateBits.toNat / 8)

/-- `fixedOutputBytes = fixedOutputBits / 8` (rule R17), as the 7-bit `FOUT`. -/
def Descriptor.fixedOutputBytes (d : Descriptor) : BitVec 7 := BitVec.ofNat 7 (d.fixedOutputBits.toNat / 8)

/-- OutputLength (rule R64), in bytes; `none` is InvalidOutputLength. A fixed-digest variant does not look at `outlen`. -/
def outputLength (cfg : Config) (fout : BitVec 7) (outlen : BitVec 22) : Option Nat :=
  if fout ≠ 0 then some fout.toNat
  else if cfg.outlenMin ≤ outlen.toNat ∧ outlen.toNat ≤ cfg.outlenMax then some outlen.toNat
  else none

end Sys2Proof.Machine
end

