-- ==== Sys2Proof/Machine/Bytes.lean ====
section
/-!
DEFINITION. Operations on one lane (00_scope.md rules R3, R5) and the state-byte space, the only address space of the
block: 200 byte addresses that view the 25 lanes (20_memory.md rules R21 to R24).
-/

namespace Sys2Proof.Machine

/-- The number of byte addresses of the state-byte space (rules R2, R20). -/
abbrev stateBytes : Nat := 200

/-- `rotl64(a, n)`: rotation toward the most significant bit (rule R5). -/
def rotl64 (a : Lane) (n : Nat) : Lane := a.rotateLeft n

/-- Byte `p` of a lane, byte 0 the least significant (rule R3). -/
def laneByte (v : Lane) (p : Nat) : Byte := v.extractLsb' (8 * p) 8

/-- `zext_64(b) × 2^(8p)`: the byte value `b` at byte position `p` of a lane (rules R3, R22). -/
def byteInLane (b : Byte) (p : Nat) : Lane := b.setWidth 64 <<< (8 * p)

/-- `StateByteRead(k)` (rule R21), for `k < 200`: the byte at position `k mod 8` of lane `k div 8` (little-endian, rule
R23). An address of 200 or more does not exist; no command forms one (`Fault.cursorOutsideRate`), and the function
answers 0 there only to be total. -/
def stateByteRead (a : Lanes) (k : Nat) : Byte :=
  match a[k / 8]? with
  | some v => laneByte v (k % 8)
  | none => 0

/-- `StateByteXor(k, b)` (rule R22), for `k < 200`: XOR `b` into the byte that `StateByteRead(k)` reads. An address of 200
or more does not exist; no command forms one, and the function changes nothing there only to be total. -/
def stateByteXor (a : Lanes) (k : Nat) (b : Byte) : Lanes :=
  if h : k / 8 < 25 then a.set (k / 8) (a[k / 8] ^^^ byteInLane b (k % 8)) else a

end Sys2Proof.Machine
end

