-- ==== Sys2Proof/Machine/Permutation.lean ====
section
/-!
DEFINITION. The permutation pipeline (40_permutation.md): the five step mappings, the fused rho-pi walk, one round, and
Keccak-f[1600]. Each is a pure function from 25 lanes to 25 lanes; the host cannot invoke one alone.
-/

namespace Sys2Proof.Machine

/-- The lane at column `x mod 5` of row `r` (rule R4). -/
def laneAt (a : Lanes) (r : Fin 5) (x : Nat) : Lane := a[5 * r.val + x % 5]

/-- theta's `C[c]`: the parity of column `c` (rule R40). -/
def columnParity (a : Lanes) (c : Fin 5) : Lane :=
  a[c.val] ^^^ a[c.val + 5] ^^^ a[c.val + 10] ^^^ a[c.val + 15] ^^^ a[c.val + 20]

/-- theta's `D[c]` from the five parities: the left neighbour's parity, and the right neighbour's rotated by one (rule
R40; 90_conflicts.md C2). -/
def columnDiffusion (parity : Vector Lane 5) (c : Fin 5) : Lane :=
  parity[c + 4] ^^^ rotl64 parity[c + 1] 1

/-- theta (rule R40): all parities and all diffusion values are computed before any lane is changed. -/
def theta (a : Lanes) : Lanes :=
  let parity := Vector.ofFn (columnParity a)
  let diffusion := Vector.ofFn (columnDiffusion parity)
  Vector.ofFn fun i : Fin 25 => a[i] ^^^ diffusion[i.val % 5]

/-- rho (rule R41). -/
def rho (a : Lanes) : Lanes := Vector.ofFn fun i : Fin 25 => rotl64 a[i] rotationOffsets[i]

/-- pi (rule R42), in its gathering form `A'[j] = A[PIINV[j]]`. -/
def pi (a : Lanes) : Lanes := Vector.ofFn fun j : Fin 25 => a[laneSources[j]]

/-- One step of the fused walk (rule R43): the temporary lane `t` is rotated into lane `PILN[k]`, whose old content
becomes the temporary lane. -/
def walkStep (at' : Lanes × Lane) (k : Fin 24) : Lanes × Lane :=
  let j := walkLanes[k]
  (at'.1.set j (rotl64 at'.2 walkRotations[k]), at'.1[j])

/-- The fused rho-pi walk (rule R43), in place with one temporary lane that starts as lane 1. -/
def rhoPiWalk (a : Lanes) : Lanes := ((List.finRange 24).foldl walkStep (a, a[1])).1

/-- chi (rule R44): every output of a row is computed from the row's input values. -/
def chi (a : Lanes) : Lanes := Vector.ofFn fun i : Fin 25 =>
  let r : Fin 5 := ⟨i.val / 5, by omega⟩
  a[i] ^^^ (~~~ laneAt a r (i.val % 5 + 1) &&& laneAt a r (i.val % 5 + 2))

/-- iota (rule R45): XOR the round constant into lane 0. -/
def iota (a : Lanes) (ir : Fin 24) : Lanes := a.set 0 (a[0] ^^^ roundConstants[ir])

/-- One round (rule R46): theta, rho, pi, chi, iota in this order. -/
def keccakRound (a : Lanes) (ir : Fin 24) : Lanes := iota (chi (pi (rho (theta a)))) ir

/-- Keccak-f[1600] (rule R47): 24 rounds with ascending round index. Irreducible only so that Lean does not unfold 24
rounds while it compares terms; the kernel evaluates it, and `unfold keccakF` opens it. -/
@[irreducible] def keccakF (a : Lanes) : Lanes := (List.finRange 24).foldl keccakRound a

end Sys2Proof.Machine
end

