-- ==== Sys2Proof/Machine/Ops.lean ====
section
/-!
DEFINITION. The operations the commands are made of: binding a variant, AbsorbByte and SqueezeByte and their
repetitions, the padding steps, answering a command (accepted or rejected), the host's moves, and reset.
-/

namespace Sys2Proof.Machine

/-- The statement `KeccakF()` (rule R47): the lanes and nothing else. -/
def Context.permute (c : Context) : Context := { c with lanes := keccakF c.lanes }

/-- `StateByteXor(k, b)` on the context (rule R22). -/
def Context.xorByte (c : Context) (k : Nat) (b : Byte) : Context := { c with lanes := stateByteXor c.lanes k b }

/-- `IDX <- (IDX + 1) mod RATE` (rules R18, R48, R55, R61). -/
def Context.advance (c : Context) : Context :=
  { c with idx := BitVec.ofNat 8 ((c.idx.toNat + 1) % c.rate.toNat) }

/-- "if IDX = 0: KeccakF()" (rules R55, R61). -/
def Context.permuteIfWrapped (c : Context) : Context := if c.wrapped then c.permute else c

/-- AbsorbByte up to the wrap test (rule R55): XOR first, then advance. -/
def Context.takeByte (b : Byte) (c : Context) : Context := (c.xorByte c.idx.toNat b).advance

/-- AbsorbByte (rule R55): XOR, advance, permute on wrap, in this order. -/
def Context.absorbByte (b : Byte) (c : Context) : Context := (c.takeByte b).permuteIfWrapped

/-- AbsorbByte for each byte of a sequence, in order (rules R57 to R60). -/
def Context.absorbBytes : List Byte → Context → Context
  | [], c => c
  | b :: bs, c => Context.absorbBytes bs (c.absorbByte b)

/-- The byte SqueezeByte emits (rule R61): it is read before the cursor advances and before any permutation. -/
def Context.outByte (c : Context) : Byte := stateByteRead c.lanes c.idx.toNat

/-- SqueezeByte's effect on the context (rule R61): advance, permute on wrap. -/
def Context.afterSqueeze (c : Context) : Context := c.advance.permuteIfWrapped

/-- "repeat len times: SqueezeByte()" (rule R62 step 5): the bytes emitted, in order, and the context left. -/
def Context.squeeze : Nat → Context → List Byte × Context
  | 0, c => ([], c)
  | n + 1, c => (c.outByte :: (Context.squeeze n c.afterSqueeze).1, (Context.squeeze n c.afterSqueeze).2)

/-- Steps 1 and 2 of FINISH (rules R62, R63): the domain suffix at `IDX`, the pad terminator at `RATE - 1`. -/
def Context.pad (c : Context) : Context :=
  (c.xorByte c.idx.toNat c.dsfx).xorByte (c.rate.toNat - 1) 0x80

/-- Step 4 of FINISH (rule R62): `IDX <- 0`. -/
def Context.rewind (c : Context) : Context := { c with idx := 0 }

/-- Steps 1 to 4 of FINISH (rule R62). -/
def Context.closeAbsorption (c : Context) : Context := c.pad.permute.rewind

/-- What START writes (rule R51): all lanes zero, the parameters of one row of `VROM`, the cursor at 0. -/
def Context.bind (d : Descriptor) : Context where
  lanes := Lanes.zero
  rate := d.rateBytes
  fout := d.fixedOutputBytes
  dsfx := d.domainSuffixByte
  idx := 0

/-- How often KeccakF runs while a sequence of bytes is absorbed (rule R66): once per wrap of the cursor. -/
def Context.absorbPermutations : List Byte → Context → Nat
  | [], _ => 0
  | b :: bs, c => (if (c.takeByte b).wrapped then 1 else 0) + Context.absorbPermutations bs (c.absorbByte b)

/-- How often KeccakF runs while `n` bytes are squeezed (rule R66): once per wrap of the cursor. -/
def Context.squeezePermutations : Nat → Context → Nat
  | 0, _ => 0
  | n + 1, c => (if c.advance.wrapped then 1 else 0) + Context.squeezePermutations n c.afterSqueeze

/-- One response per command word (rule R71): an output, appended to the log of responses. -/
def State.respond (r : Rsp) (s : State) : State := { s with rsps := s.rsps ++ [r] }

/-- `raise e` (rules R8, R72), the one way a command is turned away: its response code, and nothing else; control goes
nowhere, so there is no return either (rule R80). -/
def reject (e : Rsp) (s : State) : Host.Outcome State Fault Refusal := .next (s.respond e)

/-- A command accepted: the context and the phase it leaves, the bytes it emits (`emit`, rule R20), response OK. -/
def accept (c : Context) (p : Phase) (bytes : List Byte) (s : State) : Host.Outcome State Fault Refusal :=
  .next { s with phase := p, ctx := c, out := s.out ++ bytes, rsps := s.rsps ++ [.ok] }

/-- Work on the context that needs the precondition of the byte operations (rule R55; log 5). -/
def withCursor (s : State) (k : Host.Outcome State Fault Refusal) : Host.Outcome State Fault Refusal :=
  if s.ctx.inRange then k else .fault .cursorOutsideRate

/-- The host's next action, if it has one (rules R19, R93). -/
def State.nextAction (s : State) : Option HostAction := s.pending.head?

/-- The host's command pointer moves on, "after every command whatever its response" (rule R19). -/
def State.present (s : State) : State := { s with pending := s.pending.tail, cp := s.cp + 1 }

/-- What the lanes and registers hold after the `n`-th `rst` pulse: free values (rule R87; log 2). That they depend on `n` alone,
so that two instances of a chip with equally many pulses hold the same, is the model's choice (log 2, DESIGN CHOICE), where the
spec leaves each instance free: unsafe for a claim that compares two instances after reset. -/
def Context.afterReset (n : Nat) : Context where
  lanes := Config.freeLanes n
  rate := Config.freeRate n
  fout := Config.freeFout n
  dsfx := Config.freeDsfx n
  idx := Config.freeIdx n

/-- Reset (rules R86, R87): `PHASE <- 0`; the rest of the context is unspecified; `OUT` restarts empty; no response. -/
def State.hostReset (s : State) : State :=
  { s with phase := .uninitialized, ctx := Context.afterReset s.resets, out := [], resets := s.resets + 1 }

/-- A word that decodes to ILLEGAL (rule R76): rejected in every phase. -/
def rejectIllegal (s : State) : Host.Outcome State Fault Refusal := reject .illegalCommand s

/-- The host's next action becomes the presentation of the word `w`, in place of the one it had. -/
def State.offerWord (s : State) (w : Word32) : State := { s with pending := .word w :: s.pending.tail }

end Sys2Proof.Machine
end

