-- ==== Sys2Proof/Machine/Finish.lean ====
section
/-!
DEFINITION. The FINISH command (43_finish.md rule R62).
-/

namespace Sys2Proof.Machine

/-- FINISH with the output-length bounds as parameters (rules R62, R64; 92_eei_decisions.md D9): the phase check, the
operand check, steps 1 to 4, `len` squeezed bytes, `PHASE <- 3`. -/
def finishWith (cfg : Config) (outlen : BitVec 22) (s : State) : Host.Outcome State Fault Refusal :=
  if s.phase.holdsContext then
    match outputLength cfg s.ctx.fout outlen with
    | some len =>
      withCursor s
        (accept (s.ctx.closeAbsorption.squeeze len).2 .finished (s.ctx.closeAbsorption.squeeze len).1 s)
    | none => reject .invalidOutputLength s
  else reject .protocolViolation s

/-- FINISH (rule R62) of `SBCORE-1`. -/
def execFinish (outlen : BitVec 22) (s : State) : Host.Outcome State Fault Refusal := finishWith sbcore1 outlen s

end Sys2Proof.Machine
end

