-- ==== Sys2Proof/Machine/Start.lean ====
section
/-!
DEFINITION. The START command (41_variant_rom_start.md rule R51).
-/

namespace Sys2Proof.Machine

/-- START (rule R51): the phase check, then the operand check (rule R78), then the binding of the variant. -/
def execStart (variant : BitVec 3) (s : State) : Host.Outcome State Fault Refusal :=
  if s.phase = .uninitialized then
    match variantLookup variant with
    | some d => accept (Context.bind d) .started [] s
    | none => reject .invalidVariant s
  else reject .protocolViolation s

end Sys2Proof.Machine
end

