-- ==== Sys2Proof/Machine/Update.lean ====
section
/-!
DEFINITION. The UPDATE command in its four encodings (42_absorb.md rules R56 to R59).
-/

namespace Sys2Proof.Machine

/-- The common part of UPDATE.1, UPDATE.2 and UPDATE.3 (rules R57 to R59): the phase check, AbsorbByte for each byte in
order, `PHASE <- 2`, response OK. -/
def absorbCommand (bytes : List Byte) (s : State) : Host.Outcome State Fault Refusal :=
  if s.phase.holdsContext then
    withCursor s (accept (s.ctx.absorbBytes bytes) .absorbing [] s)
  else reject .protocolViolation s

/-- UPDATE.0 (rule R56): a no-op on the whole state, `PHASE` included; response OK. -/
def execUpdate0 (s : State) : Host.Outcome State Fault Refusal :=
  if s.phase.holdsContext then accept s.ctx s.phase [] s else reject .protocolViolation s

/-- UPDATE.1 (rule R57). -/
def execUpdate1 (b0 : BitVec 8) (s : State) : Host.Outcome State Fault Refusal := absorbCommand [b0] s

/-- UPDATE.2 (rule R58). -/
def execUpdate2 (b0 b1 : BitVec 8) (s : State) : Host.Outcome State Fault Refusal := absorbCommand [b0, b1] s

/-- UPDATE.3 (rule R59). -/
def execUpdate3 (b0 b1 b2 : BitVec 8) (s : State) : Host.Outcome State Fault Refusal := absorbCommand [b0, b1, b2] s

end Sys2Proof.Machine
end

