-- ==== Sys2Proof/Machine/Dispatch.lean ====
section
/-!
DEFINITION. One arm per command of the opcode map (30_encoding.md section 5): each calls its meaning.
-/

namespace Sys2Proof.Machine

def exec (i : Instr) (s : State) : Host.Outcome State Fault Refusal :=
  match i with
  | .start variant => Sys2Proof.Machine.execStart variant s
  | .update0 => Sys2Proof.Machine.execUpdate0 s
  | .update1 b0 => Sys2Proof.Machine.execUpdate1 b0 s
  | .update2 b0 b1 => Sys2Proof.Machine.execUpdate2 b0 b1 s
  | .update3 b0 b1 b2 => Sys2Proof.Machine.execUpdate3 b0 b1 b2 s
  | .finish outlen => Sys2Proof.Machine.execFinish outlen s

end Sys2Proof.Machine
end

