-- ==== Sys2Proof/Machine/Step.lean ====
section
/-!
DEFINITION. One step of one instance (00_scope.md rule R7): the host's next action, a command word or a pulse of `rst`.
-/

namespace Sys2Proof.Machine

/-- One step. With no action left the block waits for a word and nothing changes (60_exceptions.md section 10; rule
R86). A word is checked in the order of rule R78: encoding here, phase and operand in its meaning. -/
def step (s : State) : Host.Outcome State Fault Refusal :=
  match s.nextAction with
  | none => .next s
  | some .reset => .next s.present.hostReset
  | some (.word w) =>
    match decode w with
    | .command i => exec i s.present
    | .illegal => rejectIllegal s.present

/-- The word of `nbits` bits `w` is what the host presents next: the next step runs it (log 3). -/
def State.withFetchWord (s : State) (nbits w : Nat) : State := s.offerWord (tableWord nbits w)

end Sys2Proof.Machine
end

