-- ==== Sys2Proof/Machine/Assembler.lean ====
section
/-!
DEFINITION. The assembly language and the pseudo-commands of 30_encoding.md rules R38 and R39, which the host or the
assembler expands and the block never sees: RESET, UPDATE with any number of bytes, and the one-shot DIGEST.
-/

namespace Sys2Proof.Machine

/-- One line of assembly (rules R38, R39). The operands of `digest` have the ranges of rule R38: what R39's host check would say
of a length above 4194303, or of a variant that is no listed name and no number 0 to 7, the spec leaves open, and the model has no
such line (log 16, DESIGN CHOICE). -/
inductive AsmLine where
  | start (variant : BitVec 3)
  | update (bytes : List Byte)
  | finish (n : BitVec 22)
  | reset
  | digest (variant : BitVec 3) (n : BitVec 22) (bytes : List Byte)
deriving DecidableEq, Repr

/-- The canonical split of a byte sequence into UPDATE commands (rule R39): three bytes each, the rest in the last one;
with no byte it is nothing (UPDATE.0 is added by `expandUpdate`). -/
def splitBytes : List Byte → List Instr
  | [] => []
  | [b0] => [.update1 b0]
  | [b0, b1] => [.update2 b0 b1]
  | b0 :: b1 :: b2 :: rest => .update3 b0 b1 b2 :: splitBytes rest

/-- `UPDATE` with any number of bytes (rules R38, R39): with none it expands to one UPDATE.0. -/
def expandUpdate : List Byte → List Instr
  | [] => [.update0]
  | b :: bs => splitBytes (b :: bs)

/-- The host presents the word of a command. -/
def presentCommand (i : Instr) : HostAction := .word (encode i)

/-- The host actions of a DIGEST that passed the host's check (rule R39). -/
def digestActions (variant : BitVec 3) (n : BitVec 22) (bytes : List Byte) : List HostAction :=
  .reset :: presentCommand (.start variant) :: ((expandUpdate bytes).map presentCommand ++ [presentCommand (.finish n)])

/-- What a line expands to (rule R39): host actions, or the error that the host's own check of DIGEST reports before any
command is presented. The check of a fixed-digest variant does not look at `n` (rule R64). -/
def expandLine (cfg : Config) : AsmLine → Except Rsp (List HostAction)
  | .start v => .ok [presentCommand (.start v)]
  | .update bytes => .ok ((expandUpdate bytes).map presentCommand)
  | .finish n => .ok [presentCommand (.finish n)]
  | .reset => .ok [.reset]
  | .digest v n bytes =>
    match variantLookup v with
    | none => .error .invalidVariant
    | some d =>
      match outputLength cfg d.fixedOutputBytes n with
      | none => .error .invalidOutputLength
      | some _ => .ok (digestActions v n bytes)

/-- The six variant names of rule R38, each with its id (rule R11). -/
def variantNames : List (List Char × BitVec 3) := [
  (['S', 'H', 'A', 'K', 'E', '1', '2', '8'], 0),
  (['S', 'H', 'A', 'K', 'E', '2', '5', '6'], 1),
  (['S', 'H', 'A', '3', '-', '2', '2', '4'], 2),
  (['S', 'H', 'A', '3', '-', '2', '5', '6'], 3),
  (['S', 'H', 'A', '3', '-', '3', '8', '4'], 4),
  (['S', 'H', 'A', '3', '-', '5', '1', '2'], 5)]

/-- A token of a line (rule R38). -/
inductive Token where
  /-- a mnemonic, a name or a number -/
  | atom (cs : List Char)
  | comma
  /-- a quoted string, as its ASCII bytes -/
  | text (bytes : List Byte)
deriving DecidableEq, Repr

/-- Where the reading of a line's characters stands. -/
inductive LexState where
  | between
  | inAtom (readSoFar : List Char)
  | inText (readSoFar : List Byte)
deriving DecidableEq, Repr

/-- The tokens of the atom read so far, if there is one; its characters are held in reverse. -/
def closeAtom : LexState → List Token
  | .inAtom cs => [.atom cs.reverse]
  | .between => []
  | .inText _ => []

/-- A line's characters to its tokens (rule R38): `;` starts a comment, blanks separate, a string stands for its ASCII
bytes. `none` when a string is not closed or holds a character that is not ASCII. -/
def lexLine : List Char → LexState → Option (List Token)
  | [], .inText _ => none
  | [], st => some (closeAtom st)
  | c :: cs, .inText bs =>
    if c = '"' then (lexLine cs .between).map (.text bs.reverse :: ·)
    else if c.toNat < 128 then lexLine cs (.inText (BitVec.ofNat 8 c.toNat :: bs))
    else none
  | c :: cs, st =>
    if c = ';' then some (closeAtom st)
    else if c = '"' then (lexLine cs (.inText [])).map (closeAtom st ++ ·)
    else if c = ',' then (lexLine cs .between).map (closeAtom st ++ .comma :: ·)
    else if c = ' ' ∨ c = '\t' then (lexLine cs .between).map (closeAtom st ++ ·)
    else
      match st with
      | .inAtom r => lexLine cs (.inAtom (c :: r))
      | .between => lexLine cs (.inAtom [c])
      | .inText _ => none

/-- The value of a digit, in base ten or sixteen. -/
def digitOf (base : Nat) (c : Char) : Option Nat :=
  let v :=
    if '0'.toNat ≤ c.toNat ∧ c.toNat ≤ '9'.toNat then some (c.toNat - '0'.toNat)
    else if 'a'.toNat ≤ c.toNat ∧ c.toNat ≤ 'f'.toNat then some (c.toNat - 'a'.toNat + 10)
    else if 'A'.toNat ≤ c.toNat ∧ c.toNat ≤ 'F'.toNat then some (c.toNat - 'A'.toNat + 10)
    else none
  v.filter (· < base)

/-- Digits to a number, first digit first. -/
def digitsOf (base : Nat) : List Char → Nat → Option Nat
  | [], acc => some acc
  | c :: cs, acc => (digitOf base c).bind fun d => digitsOf base cs (acc * base + d)

/-- A number (rule R38): decimal, or hexadecimal after `0x`. -/
def numberOf : List Char → Option Nat
  | [] => none
  | '0' :: 'x' :: c :: cs => digitsOf 16 (c :: cs) 0
  | c :: cs => digitsOf 10 (c :: cs) 0

/-- A number below `2^w` as an operand of `w` bits. -/
def operandOf (w : Nat) (cs : List Char) : Option (BitVec w) :=
  (numberOf cs).bind fun n => if n < 2 ^ w then some (BitVec.ofNat w n) else none

/-- A variant (rule R38): one of the six names, or a number 0 to 7. -/
def variantOf (cs : List Char) : Option (BitVec 3) :=
  match variantNames.find? (fun p => p.1 == cs) with
  | some p => some p.2
  | none => operandOf 3 cs

/-- A list of bytes (rules R38, R39): byte values between commas, or one string; possibly none. -/
def bytesOf : List Token → Option (List Byte)
  | [] => some []
  | [.text bs] => some bs
  | [.atom cs] => (operandOf 8 cs).map fun b => [b]
  | .atom cs :: .comma :: .atom cs' :: rest =>
    (operandOf 8 cs).bind fun b => (bytesOf (.atom cs' :: rest)).map fun bs => b :: bs
  | _ => none

/-- The mnemonics of rules R38 and R39. -/
def kwStart : List Char := ['S', 'T', 'A', 'R', 'T']
/-- See `kwStart`. -/
def kwUpdate : List Char := ['U', 'P', 'D', 'A', 'T', 'E']
/-- See `kwStart`. -/
def kwFinish : List Char := ['F', 'I', 'N', 'I', 'S', 'H']
/-- See `kwStart`. -/
def kwReset : List Char := ['R', 'E', 'S', 'E', 'T']
/-- See `kwStart`. -/
def kwDigest : List Char := ['D', 'I', 'G', 'E', 'S', 'T']

/-- Tokens to a line (rules R38, R39); `some none` is a line without a command (blank, or only a comment). A DIGEST line whose
length or variant is out of the ranges of rule R38 is no line, where R39's words alone would report an error (log 16, DESIGN
CHOICE). -/
def parseTokens : List Token → Option (Option AsmLine)
  | [] => some none
  | .atom kw :: args =>
    if kw = kwUpdate then (bytesOf args).map fun bs => some (.update bs)
    else if kw = kwReset then (if args = [] then some (some .reset) else none)
    else
      match args with
      | [.atom x] =>
        if kw = kwStart then (variantOf x).map fun v => some (.start v)
        else if kw = kwFinish then (operandOf 22 x).map fun n => some (.finish n)
        else none
      | .atom x :: .comma :: .atom y :: .comma :: rest =>
        if kw = kwDigest then
          (variantOf x).bind fun v => (operandOf 22 y).bind fun n => (bytesOf rest).map fun bs => some (.digest v n bs)
        else none
      | _ => none
  | _ => none

/-- One line of text (rule R38: one command per line). -/
def parseLine (cs : List Char) : Option (Option AsmLine) := (lexLine cs .between).bind parseTokens

end Sys2Proof.Machine
end

