-- ==== Sys2Proof/Machine/Chip.lean ====
section
/-!
DEFINITION. A chip of NCTX instances (60_exceptions.md rule R83): the product of NCTX copies of the one-instance
machine, which share the read-only tables only. NCTX is the length of the list (92_eei_decisions.md D14).
-/

namespace Sys2Proof.Machine

/-- The instances of a chip; they have no identifier that a command could see, and no order of their own. -/
structure Chip where
  cores : List State
deriving DecidableEq, Repr

/-- A chip of `n` instances after power-on. -/
def chipReset (n : Nat) : Chip := { cores := List.replicate n State.reset }

/-- One step of instance `k` (what two instances hold after equally many resets: log 2); any interleaving of such steps is a run of the chip. -/
def chipStep (k : Nat) (c : Chip) : Host.Outcome Chip Fault Refusal :=
  match c.cores[k]? with
  | none => .refused .noSuchCore
  | some s =>
    match step s with
    | .next s' => .next { cores := c.cores.set k s' }
    | .fault f => .fault f
    | .refused r => .refused r

/-- A run of the chip: which instance makes each step. -/
def chipRun : List Nat → Chip → Host.Outcome Chip Fault Refusal
  | [], c => .next c
  | k :: ks, c =>
    match chipStep k c with
    | .next c' => chipRun ks c'
    | .fault f => .fault f
    | .refused r => .refused r

end Sys2Proof.Machine
end

