-- ==== Sys2Proof/Machine/Micro.lean ====
section
/-!
DEFINITION. The finer model that 70_reset_and_hazards.md rule R91 allows: one command in smaller steps, one round of
the permutation or one byte operation each, with the ports of 30_encoding.md rule R30. It says nothing of time. The
command-level `step` is the machine; that this one agrees with it at command boundaries is a statement.
-/

namespace Sys2Proof.Machine

/-- What a command in progress does next. -/
inductive Activity where
  /-- no command in progress -/
  | idle
  /-- UPDATE: the bytes of the word still to be absorbed (rules R57 to R59) -/
  | absorbing (rest : List Byte)
  /-- FINISH: steps 1 and 2 done; step 4 follows the permutation of step 3 (rule R62) -/
  | padded
  /-- FINISH: step 5 (rule R62) -/
  | squeezing
  /-- the response is on the response port -/
  | responding (r : Rsp)
deriving DecidableEq, Repr

/-- One instance with the state that exists only inside a command (rule R91). theta's `C` and `D` and the temporary lane
of the walk live inside one round, which is one micro step. -/
structure Micro where
  core : State
  activity : Activity
  /-- `RND`: the index of the next round while KeccakF runs -/
  rnd : Option (Fin 24)
  /-- `OUTREM`: output bytes still to emit -/
  outrem : BitVec 22
deriving DecidableEq, Repr

/-- Between commands, and at power-on. Rule R91 calls the inside state dead there and gives it no value; that `OUTREM` is 0 and no
round index is held is the model's choice (log 11, DESIGN CHOICE), unsafe for a claim about those values between commands. -/
def Micro.idle (s : State) : Micro where
  core := s
  activity := .idle
  rnd := none
  outrem := 0

/-- `BUSY`: a command is in progress (rule R91). -/
def Micro.busy (m : Micro) : Bool := !decide (m.activity = .idle)

/-- The command ends with this response (rule R71); nothing of the instance changes. -/
def Micro.answer (r : Rsp) (m : Micro) : Micro := { m with activity := .responding r }

/-- The context changes. -/
def Micro.withContext (c : Context) (m : Micro) : Micro := { m with core := { m.core with ctx := c } }

/-- The phase changes. -/
def Micro.withPhase (p : Phase) (m : Micro) : Micro := { m with core := { m.core with phase := p } }

/-- A byte operation moved the cursor to where `c` has it: when it wrapped, KeccakF starts (rules R55, R61). -/
def Micro.afterByte (c : Context) (m : Micro) : Micro :=
  { m.withContext c with rnd := if c.wrapped then some 0 else none }

/-- An UPDATE word with bytes is taken: the checks of rules R57 to R59. -/
def Micro.takeUpdate (bytes : List Byte) (m : Micro) : Host.Outcome Micro Fault Refusal :=
  if m.core.phase.holdsContext then
    if m.core.ctx.inRange then .next { m with activity := .absorbing bytes } else .fault .cursorOutsideRate
  else .next (m.answer .protocolViolation)

/-- A command is taken: its checks (rule R78), and the part of its work that needs no further micro step. -/
def Micro.take (i : Instr) (m : Micro) : Host.Outcome Micro Fault Refusal :=
  match i with
  | .start v =>
    if m.core.phase = .uninitialized then
      match variantLookup v with
      | some d => .next (((m.withContext (Context.bind d)).withPhase .started).answer .ok)
      | none => .next (m.answer .invalidVariant)
    else .next (m.answer .protocolViolation)
  | .update0 => .next (m.answer (if m.core.phase.holdsContext then .ok else .protocolViolation))
  | .update1 b0 => m.takeUpdate [b0]
  | .update2 b0 b1 => m.takeUpdate [b0, b1]
  | .update3 b0 b1 b2 => m.takeUpdate [b0, b1, b2]
  | .finish n =>
    if m.core.phase.holdsContext then
      match outputLength sbcore1 m.core.ctx.fout n with
      | some len =>
        if m.core.ctx.inRange then
          .next { m.withContext m.core.ctx.pad with
                  activity := .padded, rnd := some 0, outrem := BitVec.ofNat 22 len }
        else .fault .cursorOutsideRate
      | none => .next (m.answer .invalidOutputLength)
    else .next (m.answer .protocolViolation)

/-- No command in progress: the host's next action. `rst` is looked at only here: the host must not pulse it while a
command is in progress (rule R89; log 8). -/
def Micro.accept (m : Micro) : Host.Outcome Micro Fault Refusal :=
  match m.core.nextAction with
  | none => .next m
  | some .reset => .next { m with core := m.core.present.hostReset }
  | some (.word w) =>
    match decode w with
    | .command i => Micro.take i { m with core := m.core.present }
    | .illegal => .next (Micro.answer .illegalCommand { m with core := m.core.present })

/-- `RND` moves on; after round 23 the permutation is over (rule R47). -/
def nextRound (ir : Fin 24) : Option (Fin 24) := if h : ir.val + 1 < 24 then some ⟨ir.val + 1, h⟩ else none

/-- Step 5 of FINISH: one byte when the host takes it, nothing while the host stalls (rule R89); `PHASE <- 3` after the
last. -/
def Micro.squeezeTick (outReady : Bool) (m : Micro) : Micro :=
  if m.outrem = 0 then (m.withPhase .finished).answer .ok
  else if outReady then
    let c := m.core.ctx
    { m.afterByte c.advance with
      core := { (m.afterByte c.advance).core with out := m.core.out ++ [c.outByte] }, outrem := m.outrem - 1 }
  else m

/-- One micro step. `outReady` is the port `out_ready` (rule R30). -/
def Micro.tick (outReady : Bool) (m : Micro) : Host.Outcome Micro Fault Refusal :=
  match m.rnd with
  | some ir =>
    .next { m.withContext { m.core.ctx with lanes := keccakRound m.core.ctx.lanes ir } with rnd := nextRound ir }
  | none =>
    match m.activity with
    | .idle => m.accept
    | .absorbing (b :: rest) => .next { m.afterByte (m.core.ctx.takeByte b) with activity := .absorbing rest }
    | .absorbing [] => .next ((m.withPhase .absorbing).answer .ok)
    | .padded => .next { m.withContext m.core.ctx.rewind with activity := .squeezing }
    | .squeezing => .next (m.squeezeTick outReady)
    | .responding r => .next { m with core := m.core.respond r, activity := .idle }

/-- A run of micro steps, one per value of `out_ready`. -/
def Micro.run : List Bool → Micro → Host.Outcome Micro Fault Refusal
  | [], m => .next m
  | r :: rs, m =>
    match m.tick r with
    | .next m' => Micro.run rs m'
    | .fault f => .fault f
    | .refused q => .refused q

/-- The block's outputs on its ports (rule R30). A port whose `valid` is low is `none`. -/
structure Ports where
  cmdReady : Bool
  /-- `rsp_valid` with `rsp_code` -/
  rsp : Option (BitVec 3)
  /-- `out_valid` with `out_byte` and `out_last` -/
  out : Option (Byte × Bool)
deriving DecidableEq, Repr

/-- The ports as the micro state drives them: `cmd_ready` is low while a command is in progress; `out_last` is high with
the last output byte of a FINISH (rule R30). -/
def Micro.ports (m : Micro) : Ports where
  cmdReady := !m.busy
  rsp := match m.rnd, m.activity with
    | none, .responding r => some r.code
    | _, _ => none
  out := match m.rnd, m.activity with
    | none, .squeezing => if m.outrem = 0 then none else some (m.core.ctx.outByte, m.outrem == 1)
    | _, _ => none

end Sys2Proof.Machine
end

