-- ==== Sys2Proof/Machine/Sponge.lean ====
section
/-!
DEFINITION. The functions CORE computes (00_scope.md rule R1), said block by block and not byte by byte: multi-rate
padding (43_finish.md rule R63), absorption of whole rate blocks, and the output bytes (rule R65). No command uses
this file; statements compare the commands with it.
-/

namespace Sys2Proof.Machine

/-- Rule R63: what padding adds when the message ends `idx` bytes into a block of `rate` bytes: the suffix byte at the
first free byte, zeros, 0x80 at the last byte of the block; one combined byte when only one is free. -/
def padBytes (rate idx : Nat) (dsfx : Byte) : List Byte :=
  if idx + 1 = rate then [dsfx ^^^ 0x80]
  else dsfx :: (List.replicate (rate - idx - 2) 0 ++ [0x80])

/-- XOR bytes into consecutive state bytes from address `k` on. -/
def xorBytes : List Byte → Nat → Lanes → Lanes
  | [], _, a => a
  | b :: bs, k, a => xorBytes bs (k + 1) (stateByteXor a k b)

/-- One whole block: into the rate region, then one permutation. -/
def absorbBlock (a : Lanes) (block : List Byte) : Lanes := keccakF (xorBytes block 0 a)

/-- The `i`-th block of `rate` bytes of a byte sequence. -/
def blockOf (rate : Nat) (m : List Byte) (i : Nat) : List Byte := (m.drop (i * rate)).take rate

/-- All whole blocks of a byte sequence, in order, from the lanes `a`. -/
def absorbBlocks (rate : Nat) (m : List Byte) (a : Lanes) : Lanes :=
  (List.range (m.length / rate)).foldl (fun b i => absorbBlock b (blockOf rate m i)) a

/-- The `j`-th output byte (rule R65): byte `j mod rate` after `j div rate` further permutations. -/
def outputByte (rate : Nat) (a : Lanes) (j : Nat) : Byte := stateByteRead (keccakF^[j / rate] a) (j % rate)

/-- The first `len` output bytes of the variant `d` on the message `m`. -/
def sponge (d : Descriptor) (m : List Byte) (len : Nat) : List Byte :=
  let rate := d.rateBits.toNat / 8
  let a := absorbBlocks rate (m ++ padBytes rate (m.length % rate) d.domainSuffixByte) Lanes.zero
  (List.range len).map (outputByte rate a)

end Sys2Proof.Machine
end

