-- ==== Sys2Proof/Safety.lean ====
section
/-!
DEFINITION. What a safe run is: the invariants of the state (10_state.md rules R17, R18; 60_exceptions.md rule R84),
and a run, its result and its success (70_reset_and_hazards.md rule R93).
-/

namespace Sys2Proof.Machine

/-- `RATE`, `FOUT`, `DSFX` are one row of `VROM`, the only values they ever hold once bound (rule R17). -/
abbrev Context.Bound (c : Context) : Prop :=
  ∃ d ∈ vrom, c.rate = d.rateBytes ∧ c.fout = d.fixedOutputBytes ∧ c.dsfx = d.domainSuffixByte

/-- What FINISH left, in phase 3 (rules R62, R64): the length of `OUT`, and where the cursor stands. -/
abbrev State.DigestOut (s : State) : Prop :=
  (s.ctx.fout ≠ 0 → s.out.length = s.ctx.fout.toNat) ∧
  (s.ctx.fout = 0 → sbcore1.outlenMin ≤ s.out.length ∧ s.out.length ≤ sbcore1.outlenMax) ∧
  s.ctx.idx.toNat = s.out.length % s.ctx.rate.toNat

/-- The invariant of one instance: a bound context with `IDX < RATE` in phases 1 to 3 (rules R17, R18); a context that is
as START left it in phase 1 (rules R51, R56, R84); nothing emitted before phase 3 (rule R84); a digest in phase 3. -/
abbrev State.Inv (s : State) : Prop :=
  (s.phase ≠ .uninitialized → s.ctx.Bound ∧ s.ctx.idx.toNat < s.ctx.rate.toNat) ∧
  (s.phase = .started → s.ctx.idx = 0 ∧ s.ctx.lanes = Lanes.zero) ∧
  (s.phase ≠ .finished → s.out = []) ∧
  (s.phase = .finished → s.DigestOut)

/-- The result of a run (rule R93). -/
structure RunResult where
  rsps : List Rsp
  out : List Byte
  phase : Phase
deriving DecidableEq, Repr

/-- A reset instance and a host that is about to do `actions` (rule R93; log 3). -/
def State.loaded (actions : List HostAction) : State := { State.reset with pending := actions }

/-- The result of a run from a reset instance (rule R93): it ends when the list is exhausted. -/
def runResult (actions : List HostAction) : Option RunResult :=
  match core.run actions.length (State.loaded actions) with
  | .next s => some { rsps := s.rsps, out := s.out, phase := s.phase }
  | .fault _ => none
  | .refused _ => none

/-- A run succeeded when every response is OK and the final `PHASE` is 3 (rule R93). -/
abbrev RunResult.Succeeded (r : RunResult) : Prop := (∀ x ∈ r.rsps, x = .ok) ∧ r.phase = .finished

/-- The message bytes of an UPDATE command (rules R56 to R59); no other command carries any. -/
def updateBytes : Instr → Option (List Byte)
  | .start _ => none
  | .update0 => some []
  | .update1 b0 => some [b0]
  | .update2 b0 b1 => some [b0, b1]
  | .update3 b0 b1 b2 => some [b0, b1, b2]
  | .finish _ => none

/-- A sequence of commands, one after the other (rule R27 (a)). -/
def execAll : List Instr → State → Host.Outcome State Fault Refusal
  | [], s => .next s
  | i :: is, s =>
    match exec i s with
    | .next t => execAll is t
    | .fault f => .fault f
    | .refused r => .refused r

/-- Two outcomes that a host cannot tell apart: the same phase, output, responses and remaining actions, and the same context
once there is one. -/
def SameToTheHost : Host.Outcome State Fault Refusal → Host.Outcome State Fault Refusal → Prop
  | .next t, .next u =>
    t.phase = u.phase ∧ t.out = u.out ∧ t.rsps = u.rsps ∧ t.pending = u.pending ∧ t.cp = u.cp ∧
      (t.phase ≠ .uninitialized → t.ctx = u.ctx)
  | .fault f, .fault g => f = g
  | .refused r, .refused q => r = q
  | _, _ => False

end Sys2Proof.Machine
end

