-- ==== Sys2Proof/Certificates/Slice0/Obligations.lean ====
section
/-!
DEFINITION. The statements for the provers, from the spec's numbered rules. Each docstring names its rule.
-/

open Sys2Proof Sys2Proof.Machine

/-! ### Encoding (30_encoding.md) -/

/-- 30_encoding.md section 5: decoding the word of any command gives it back, every operand at every value. -/
def Obligations.DecodeOfEncode : Prop := ∀ i : Instr, decode (encode i) = .command i

/-- 30_encoding.md section 5, 92_eei_decisions.md D4 ("one word per command instance"): a word that decodes to a command
is that command's word, so no two words decode to the same command. -/
def Obligations.EncodeOfDecode : Prop := ∀ (w : Word32) (i : Instr), decode w = .command i → encode i = w

/-- Rule R36: the opcode map is the table of 30_encoding.md section 5, row by row; the six rows are disjoint; a word that matches
a row decodes to that row's command with the operands of rule R35; a word that matches no row decodes to ILLEGAL. -/
def Obligations.DecodeByTheOpcodeMap : Prop :=
  opcodeMap.map (fun r => (r.mnemonic, r.pattern, r.mask)) =
    [("START", 0x10000000, 0xFFFFFFF8), ("UPDATE.0", 0x20000000, 0xFFFFFFFF), ("UPDATE.1", 0x24000000, 0xFFFFFF00),
      ("UPDATE.2", 0x28000000, 0xFFFF0000), ("UPDATE.3", 0x2C000000, 0xFF000000), ("FINISH", 0x30000000, 0xFFC00000)] ∧
  opcodeMap.Pairwise (fun r q => ∀ w, ¬ (w &&& r.mask = r.pattern ∧ w &&& q.mask = q.pattern)) ∧
  (∀ r ∈ opcodeMap, ∀ w, w &&& r.mask = r.pattern → decode w = .command (r.read w)) ∧
  (∀ w, opcodeMap.map (fun r => r.read w) =
    [.start (w.extractLsb' 0 3), .update0, .update1 (w.extractLsb' 0 8), .update2 (w.extractLsb' 0 8) (w.extractLsb' 8 8),
      .update3 (w.extractLsb' 0 8) (w.extractLsb' 8 8) (w.extractLsb' 16 8), .finish (w.extractLsb' 0 22)]) ∧
  (∀ w, (∀ r ∈ opcodeMap, w &&& r.mask ≠ r.pattern) → decode w = .illegal)

/-- Rules R32, R33, R34: the fields of every command's word: `op`, `cnt`, the operands, and zero everywhere else. -/
def Obligations.FormatsOfTheWords : Prop :=
  (∀ v, let w := encode (.start v);
    w.extractLsb' 28 4 = 0b0001 ∧ w.extractLsb' 3 25 = 0 ∧ w.extractLsb' 0 3 = v) ∧
  (let w := encode .update0;
    w.extractLsb' 28 4 = 0b0010 ∧ w.extractLsb' 26 2 = 0 ∧ w.extractLsb' 24 2 = 0 ∧
    w.extractLsb' 16 8 = 0 ∧ w.extractLsb' 8 8 = 0 ∧ w.extractLsb' 0 8 = 0) ∧
  (∀ b0, let w := encode (.update1 b0);
    w.extractLsb' 28 4 = 0b0010 ∧ w.extractLsb' 26 2 = 1 ∧ w.extractLsb' 24 2 = 0 ∧
    w.extractLsb' 16 8 = 0 ∧ w.extractLsb' 8 8 = 0 ∧ w.extractLsb' 0 8 = b0) ∧
  (∀ b0 b1, let w := encode (.update2 b0 b1);
    w.extractLsb' 28 4 = 0b0010 ∧ w.extractLsb' 26 2 = 2 ∧ w.extractLsb' 24 2 = 0 ∧
    w.extractLsb' 16 8 = 0 ∧ w.extractLsb' 8 8 = b1 ∧ w.extractLsb' 0 8 = b0) ∧
  (∀ b0 b1 b2, let w := encode (.update3 b0 b1 b2);
    w.extractLsb' 28 4 = 0b0010 ∧ w.extractLsb' 26 2 = 3 ∧ w.extractLsb' 24 2 = 0 ∧
    w.extractLsb' 16 8 = b2 ∧ w.extractLsb' 8 8 = b1 ∧ w.extractLsb' 0 8 = b0) ∧
  (∀ n, let w := encode (.finish n);
    w.extractLsb' 28 4 = 0b0011 ∧ w.extractLsb' 22 6 = 0 ∧ w.extractLsb' 0 22 = n)

/-- Rule R37: a word decodes to ILLEGAL exactly when one of the rule's reasons holds; `wordWellFormed` is the same check. -/
def Obligations.IllegalWordsAreThoseOfTheRule : Prop :=
  ∀ w : Word32,
    (decode w = .illegal ↔
      (w.extractLsb' 28 4 ≠ 1 ∧ w.extractLsb' 28 4 ≠ 2 ∧ w.extractLsb' 28 4 ≠ 3) ∨
      (w.extractLsb' 28 4 = 1 ∧ w.extractLsb' 3 25 ≠ 0) ∨
      (w.extractLsb' 28 4 = 2 ∧ w.extractLsb' 24 2 ≠ 0) ∨
      (w.extractLsb' 28 4 = 2 ∧
        (((w.extractLsb' 26 2).toNat ≤ 0 ∧ w.extractLsb' 0 8 ≠ 0) ∨
         ((w.extractLsb' 26 2).toNat ≤ 1 ∧ w.extractLsb' 8 8 ≠ 0) ∨
         ((w.extractLsb' 26 2).toNat ≤ 2 ∧ w.extractLsb' 16 8 ≠ 0))) ∨
      (w.extractLsb' 28 4 = 3 ∧ w.extractLsb' 22 6 ≠ 0)) ∧
    (decode w = .illegal ↔ wordWellFormed w = false)

/-- 30_encoding.md section 5 and 95_test_vectors.md section 3.1: words written out, and what they decode to. -/
def Obligations.SpecWordsDecode : Prop :=
  decode 0x10000003 = .command (.start 3) ∧ decode 0x10000006 = .command (.start 6) ∧
  decode 0x20000000 = .command .update0 ∧ decode 0x24000061 = .command (.update1 0x61) ∧
  decode 0x28006261 = .command (.update2 0x61 0x62) ∧ decode 0x2C636261 = .command (.update3 0x61 0x62 0x63) ∧
  decode 0x30000020 = .command (.finish 32) ∧ decode 0x30200000 = .command (.finish 2097152) ∧
  decode 0x00000000 = .illegal ∧ decode 0xFFFFFFFF = .illegal ∧ decode 0x10000008 = .illegal ∧
  decode 0x24006100 = .illegal ∧ decode 0x21000000 = .illegal ∧ decode 0x30400000 = .illegal ∧
  decode 0x40000000 = .illegal

/-! ### Lanes and state bytes (00_scope.md, 20_memory.md) -/

/-- Rule R5: rotation by 0 is the identity, bit `j` becomes bit `(j + n) mod 64`, the value is the rule's formula; NOT
inverts all 64 bits; XOR and AND are bit by bit. -/
def Obligations.LaneOperations : Prop :=
  (∀ a : Lane, rotl64 a 0 = a) ∧
  (∀ (a : Lane) (n j : Nat), n ≤ 63 → j ≤ 63 → (rotl64 a n).getLsbD ((j + n) % 64) = a.getLsbD j) ∧
  (∀ (a : Lane) (n : Nat), 1 ≤ n → n ≤ 63 →
    (rotl64 a n).toNat = (a.toNat * 2 ^ n) % 2 ^ 64 + a.toNat / 2 ^ (64 - n)) ∧
  (∀ a : Lane, (~~~ a).toNat = (2 ^ 64 - 1) - a.toNat) ∧
  (∀ (a b : Lane) (j : Nat), (a ^^^ b).getLsbD j = (a.getLsbD j ^^ b.getLsbD j) ∧
    (a &&& b).getLsbD j = (a.getLsbD j && b.getLsbD j))

/-- Rule R21: the value of a state byte, at every address; and its bits: bit `j` of the byte at `k` is bit `8 (k mod 8) + j` of
lane `k div 8` (20_memory.md section 2). -/
def Obligations.StateByteReadValue : Prop :=
  ∀ (a : Lanes) (k : Nat) (h : k < 200),
    (stateByteRead a k).toNat = (a[k / 8].toNat / 2 ^ (8 * (k % 8))) % 256 ∧
    ∀ j < 8, (stateByteRead a k).getLsbD j = a[k / 8].getLsbD (8 * (k % 8) + j)

/-- Rule R22: the lane written and its value, every other lane unchanged; the byte read back; every other byte unchanged;
XOR with 0 changes nothing; two XORs at one address combine; XORs at any addresses commute. -/
def Obligations.StateByteXorEffect : Prop :=
  ∀ (a : Lanes) (k : Nat) (b : Byte) (h : k < 200),
    (stateByteXor a k b)[k / 8] = a[k / 8] ^^^ BitVec.ofNat 64 (b.toNat * 2 ^ (8 * (k % 8))) ∧
    (∀ (i : Nat) (hi : i < 25), i ≠ k / 8 → (stateByteXor a k b)[i] = a[i]) ∧
    stateByteRead (stateByteXor a k b) k = stateByteRead a k ^^^ b ∧
    (∀ k' < 200, k' ≠ k → stateByteRead (stateByteXor a k b) k' = stateByteRead a k') ∧
    stateByteXor a k 0 = a ∧
    (∀ b', stateByteXor (stateByteXor a k b) k b' = stateByteXor a k (b ^^^ b')) ∧
    (∀ k' < 200, ∀ b', stateByteXor (stateByteXor a k b) k' b' = stateByteXor (stateByteXor a k' b') k b)

/-! ### The permutation (40_permutation.md) -/

/-- Rules R12 to R15 (10_state.md): the 24 round constants, each with its round index, the bits a constant can have and its two
repeats; the offsets are the standard's coordinate walk, pairwise different off lane 0; `PI` in coordinates and `PIINV` its
inverse; the walk tables by their definition. -/
def Obligations.RomTablesByDefinition : Prop :=
  (∀ row ∈
    ([(0x0000000000000001, 0), (0x0000000000008082, 1), (0x800000000000808A, 2),
      (0x8000000080008000, 3), (0x000000000000808B, 4), (0x0000000080000001, 5),
      (0x8000000080008081, 6), (0x8000000000008009, 7), (0x000000000000008A, 8),
      (0x0000000000000088, 9), (0x0000000080008009, 10), (0x000000008000000A, 11),
      (0x000000008000808B, 12), (0x800000000000008B, 13), (0x8000000000008089, 14),
      (0x8000000000008003, 15), (0x8000000000008002, 16), (0x8000000000000080, 17),
      (0x000000000000800A, 18), (0x800000008000000A, 19), (0x8000000080008081, 20),
      (0x8000000000008080, 21), (0x0000000080000001, 22), (0x8000000080008008, 23)] :
      List (Lane × Fin 24)), roundConstants[row.2] = row.1) ∧
  (∀ (ir : Fin 24) (j : Fin 64), roundConstants[ir].getLsbD j.val = true → j.val ∈ [0, 1, 3, 7, 15, 31, 63]) ∧
  roundConstants[5] = roundConstants[22] ∧ roundConstants[6] = roundConstants[20] ∧
  (∀ i : Fin 25, rotationOffsets[i] < 64 ∧ (rotationOffsets[i] = 0 ↔ i = 0)) ∧
  (∀ i j : Fin 25, rotationOffsets[i] = rotationOffsets[j] → i = j) ∧
  (∀ i : Fin 25, laneDestinations[i].val = i.val / 5 + 5 * ((2 * (i.val % 5) + 3 * (i.val / 5)) % 5) ∧
    laneSources[laneDestinations[i]] = i) ∧
  walkLanes[0] = laneDestinations[1] ∧ walkRotations[0] = rotationOffsets[1] ∧
  (∀ k : Fin 23, walkLanes[k.succ] = laneDestinations[walkLanes[k.castSucc]] ∧
    walkRotations[k.succ] = rotationOffsets[walkLanes[k.castSucc]]) ∧
  walkLanes[23] = 1 ∧
  (∀ k : Fin 24, walkRotations[k] = ((k.val + 1) * (k.val + 2) / 2) % 64)

/-- Rule R40: theta: the parities of the five columns of the input, the diffusion values from them, and every lane XORed with its
column's; an all-zero state and a state of even parity in every column are unchanged. -/
def Obligations.ThetaByColumns : Prop :=
  ∀ a : Lanes,
    (∀ parity diffusion : Fin 5 → Lane,
      (∀ c : Fin 5, parity c = a[c.val] ^^^ a[c.val + 5] ^^^ a[c.val + 10] ^^^ a[c.val + 15] ^^^ a[c.val + 20]) →
      (∀ c : Fin 5, diffusion c = parity (c + 4) ^^^ rotl64 (parity (c + 1)) 1) →
      ∀ (x y : Fin 5), (theta a)[5 * y.val + x.val] = a[5 * y.val + x.val] ^^^ diffusion x) ∧
    ((∀ c : Fin 5, a[c.val] ^^^ a[c.val + 5] ^^^ a[c.val + 10] ^^^ a[c.val + 15] ^^^ a[c.val + 20] = 0) → theta a = a) ∧
    theta Lanes.zero = Lanes.zero

/-- Rules R41 and R42: rho rotates lane `i` by `RHO[i]`, leaves lane 0, and keeps the number of set bits of every lane; pi moves
the content of lane `i` to lane `PI[i]`, that is the lane at column `x`, row `y` to column `y`, row `(2x + 3y) mod 5`; `PIINV`
gathers; the 24 lanes off the origin form one cycle, and applying pi 24 times returns every lane. -/
def Obligations.RhoRotatesAndPiMoves : Prop :=
  ∀ a : Lanes,
    (∀ i : Fin 25, (rho a)[i] = rotl64 a[i] rotationOffsets[i] ∧ rotationOffsets[i] ≤ 62 ∧
      (rotationOffsets[i] = 0 ↔ i = 0)) ∧
    (rho a)[0] = a[0] ∧
    (∀ i : Fin 25, (Finset.univ.filter fun j : Fin 64 => (rho a)[i].getLsbD j.val = true).card =
      (Finset.univ.filter fun j : Fin 64 => a[i].getLsbD j.val = true).card) ∧
    (∀ i : Fin 25, (pi a)[laneDestinations[i]] = a[i] ∧ (pi a)[i] = a[laneSources[i]]) ∧
    (pi a)[0] = a[0] ∧
    (∀ x y : Fin 5, (pi a)[5 * ((2 * x.val + 3 * y.val) % 5) + y.val] = a[5 * y.val + x.val]) ∧
    (∀ i : Fin 25, i ≠ 0 → ∃ k : Fin 24, (fun j : Fin 25 => laneDestinations[j])^[k.val] 1 = i) ∧
    pi^[24] a = a

/-- Rule R43: the walk, written as the rule's loop with its temporary lane; at step `k` the temporary holds the original content
of lane `PILN[k-1]` (lane 1 at first); the result equals `pi(rho(A))` for every input; lane 0 is never touched; lane 1 is written
last, from the original lane 6. -/
def Obligations.WalkIsRhoThenPi : Prop :=
  ∀ a : Lanes,
    rhoPiWalk a = pi (rho a) ∧ (rhoPiWalk a)[0] = a[0] ∧ (rhoPiWalk a)[1] = rotl64 a[6] 44 ∧
    ∀ (lanes : Nat → Lanes) (t : Nat → Lane),
      lanes 0 = a → t 0 = a[1] →
      (∀ k : Fin 24, lanes (k.val + 1) = (lanes k.val).set walkLanes[k] (rotl64 (t k.val) walkRotations[k]) ∧
        t (k.val + 1) = (lanes k.val)[walkLanes[k]]) →
      rhoPiWalk a = lanes 24 ∧ ∀ k : Fin 24, t (k.val + 1) = a[walkLanes[k]]

/-- Rules R44 and R45: chi row by row from the row's input values, zero rows stay zero and a row with one nonzero lane also
shows it two to the left; iota changes lane 0 only, by the round constant, and twice is nothing. -/
def Obligations.ChiByRowsAndIota : Prop :=
  ∀ a : Lanes,
    (∀ r x : Fin 5, (chi a)[5 * r.val + x.val] = a[5 * r.val + x.val] ^^^
      (~~~ a[5 * r.val + (x.val + 1) % 5] &&& a[5 * r.val + (x.val + 2) % 5])) ∧
    (∀ r : Fin 5, (∀ x : Fin 5, a[5 * r.val + x.val] = 0) → ∀ x : Fin 5, (chi a)[5 * r.val + x.val] = 0) ∧
    (∀ r x : Fin 5, (∀ y : Fin 5, y ≠ x → a[5 * r.val + y.val] = 0) →
      ∀ y : Fin 5, (chi a)[5 * r.val + y.val] =
        if y = x ∨ y = x + 3 then a[5 * r.val + x.val] else 0) ∧
    (∀ ir : Fin 24, (iota a ir)[0] = a[0] ^^^ roundConstants[ir] ∧
      (∀ (i : Nat) (hi : i < 25), i ≠ 0 → (iota a ir)[i] = a[i]) ∧ iota (iota a ir) ir = a)

/-- Rules R46 and R47: a round is the five steps in order, each on the whole output of the one before; the walk may stand for rho
and pi; a round of the all-zero state; KeccakF is the 24 rounds with indices 0 to 23 ascending, and the all-zero state is not a
fixed point of it. -/
def Obligations.KeccakFIsTwentyFourRounds : Prop :=
  (∀ (a : Lanes) (ir : Fin 24), keccakRound a ir = iota (chi (pi (rho (theta a)))) ir ∧
    keccakRound a ir = iota (chi (rhoPiWalk (theta a))) ir) ∧
  (∀ ir : Fin 24, keccakRound Lanes.zero ir = Lanes.zero.set 0 roundConstants[ir]) ∧
  (∀ (a : Lanes) (run : Nat → Lanes), run 0 = a → (∀ ir : Fin 24, run (ir.val + 1) = keccakRound (run ir.val) ir) →
    keccakF a = run 24) ∧
  keccakF Lanes.zero ≠ Lanes.zero

/-! ### Variants and START (41_variant_rom_start.md) -/

/-- Rule R50: the six entries and no entry for 6 and 7. And, from 10_state.md section 3.2: for every entry the rate is 72 to 168
bytes, a multiple of 8, both divisions are exact, and the suffix is 0x1F exactly for an XOF. -/
def Obligations.VariantTable : Prop :=
  variantLookup 0 = some ⟨1344, 0, 0x1F⟩ ∧ variantLookup 1 = some ⟨1088, 0, 0x1F⟩ ∧
  variantLookup 2 = some ⟨1152, 224, 0x06⟩ ∧ variantLookup 3 = some ⟨1088, 256, 0x06⟩ ∧
  variantLookup 4 = some ⟨832, 384, 0x06⟩ ∧ variantLookup 5 = some ⟨576, 512, 0x06⟩ ∧
  variantLookup 6 = none ∧ variantLookup 7 = none ∧
  ∀ v d, variantLookup v = some d →
    72 ≤ d.rateBytes.toNat ∧ d.rateBytes.toNat ≤ 168 ∧ 8 ∣ d.rateBytes.toNat ∧
    d.rateBytes.toNat * 8 = d.rateBits.toNat ∧ d.fixedOutputBytes.toNat * 8 = d.fixedOutputBits.toNat ∧
    (d.domainSuffixByte = 0x1F ↔ d.fixedOutputBytes = 0) ∧ (d.domainSuffixByte = 0x06 ↔ d.fixedOutputBytes ≠ 0)

/-- Rule R17, for the whole machine: a step changes `RATE`, `FOUT` or `DSFX` only when it is an accepted START, which writes all
three from one row of `VROM`, or a pulse of `rst`, after which they are unspecified; in phases 1 to 3 (with the invariant) they
are one of the six rows of the rule's table, with the rule's invariants. -/
def Obligations.ParametersWrittenByStartOnly : Prop :=
  (∀ s t : State, step s = .next t →
    (t.ctx.rate = s.ctx.rate ∧ t.ctx.fout = s.ctx.fout ∧ t.ctx.dsfx = s.ctx.dsfx) ∨
    (∃ rest, s.pending = .reset :: rest) ∨
    (∃ w v d rest, s.pending = .word w :: rest ∧ decode w = .command (.start v) ∧ s.phase = .uninitialized ∧
      variantLookup v = some d ∧ t.rsps = s.rsps ++ [.ok] ∧
      t.ctx.rate.toNat = d.rateBits.toNat / 8 ∧ t.ctx.fout.toNat = d.fixedOutputBits.toNat / 8 ∧
      t.ctx.dsfx = d.domainSuffixByte)) ∧
  (∀ s : State, s.Inv → s.phase ≠ .uninitialized →
    (s.ctx.rate, s.ctx.fout, s.ctx.dsfx) ∈
      ([(168, 0, 0x1F), (136, 0, 0x1F), (144, 28, 0x06), (136, 32, 0x06), (104, 48, 0x06), (72, 64, 0x06)] :
        List (BitVec 8 × BitVec 7 × BitVec 8)) ∧
    72 ≤ s.ctx.rate.toNat ∧ s.ctx.rate.toNat ≤ 168 ∧ 8 ∣ s.ctx.rate.toNat ∧
    (s.ctx.dsfx = 0x1F ↔ s.ctx.fout = 0) ∧ (s.ctx.dsfx = 0x06 ↔ s.ctx.fout ≠ 0))

/-- Rule R51: its encoding; in phase 0 an id 0 to 5 binds the variant (all lanes zero, the row's parameters, `IDX` = 0, `PHASE` =
1, OK, no byte), with the values of the rule's table; an id 6 or 7 is InvalidVariant; in any other phase every id, 6 and 7 too,
is ProtocolViolation; a rejected START changes nothing. -/
def Obligations.StartBindsTheVariant : Prop :=
  (∀ w : Word32, w &&& 0xFFFFFFF8 = 0x10000000 → decode w = .command (.start (w.extractLsb' 0 3))) ∧
  ∀ (v : BitVec 3) (s : State),
    (s.phase = .uninitialized → ∀ d, variantLookup v = some d →
      exec (.start v) s = .next { s with
        phase := .started, rsps := s.rsps ++ [.ok],
        ctx := { lanes := Vector.replicate 25 0, rate := d.rateBytes, fout := d.fixedOutputBytes,
                 dsfx := d.domainSuffixByte, idx := 0 } }) ∧
    (s.phase = .uninitialized → ∀ row ∈
      ([(0, 168, 0, 0x1F), (1, 136, 0, 0x1F), (2, 144, 28, 0x06), (3, 136, 32, 0x06), (4, 104, 48, 0x06), (5, 72, 64, 0x06)] :
        List (BitVec 3 × BitVec 8 × BitVec 7 × BitVec 8)),
      v = row.1 → exec (.start v) s = .next { s with
        phase := .started, rsps := s.rsps ++ [.ok],
        ctx := { lanes := Vector.replicate 25 0, rate := row.2.1, fout := row.2.2.1, dsfx := row.2.2.2, idx := 0 } }) ∧
    (s.phase = .uninitialized → 6 ≤ v.toNat → exec (.start v) s = .next { s with rsps := s.rsps ++ [.invalidVariant] }) ∧
    (s.phase ≠ .uninitialized → exec (.start v) s = .next { s with rsps := s.rsps ++ [.protocolViolation] })

/-- Rule R52: after an accepted START two variants differ only in `RATE`, `FOUT` and `DSFX`; SHAKE256 and SHA3-256 have the
same rate. -/
def Obligations.VariantsDifferOnlyInParameters : Prop :=
  (∀ (v w : BitVec 3) (s t u : State), s.phase = .uninitialized → v.toNat ≤ 5 → w.toNat ≤ 5 →
    exec (.start v) s = .next t → exec (.start w) s = .next u →
    { t with ctx := { t.ctx with rate := u.ctx.rate, fout := u.ctx.fout, dsfx := u.ctx.dsfx } } = u) ∧
  (∀ (s t u : State), s.phase = .uninitialized → exec (.start 1) s = .next t → exec (.start 3) s = .next u →
    t.ctx.rate = u.ctx.rate ∧ t.ctx.dsfx = 0x1F ∧ u.ctx.dsfx = 0x06 ∧ t.ctx.fout = 0 ∧ u.ctx.fout = 32)

/-! ### Absorption (42_absorb.md) -/

/-- Rule R55: AbsorbByte on a context with `IDX < RATE`: below `RATE - 1` the byte is XORed in and `IDX` is one more; at
`RATE - 1` the byte is XORed in before the permutation, which runs at once, and `IDX` is 0. The parameters stay. -/
def Obligations.AbsorbByteEffect : Prop :=
  ∀ (c : Context) (b : Byte), c.idx.toNat < c.rate.toNat → c.rate.toNat ≤ 200 →
    (c.absorbByte b).rate = c.rate ∧ (c.absorbByte b).fout = c.fout ∧ (c.absorbByte b).dsfx = c.dsfx ∧
    (c.idx.toNat + 1 < c.rate.toNat →
      (c.absorbByte b).lanes = stateByteXor c.lanes c.idx.toNat b ∧ (c.absorbByte b).idx.toNat = c.idx.toNat + 1) ∧
    (c.idx.toNat + 1 = c.rate.toNat →
      (c.absorbByte b).lanes = keccakF (stateByteXor c.lanes c.idx.toNat b) ∧ (c.absorbByte b).idx = 0)

/-- Rule R56: the single word of UPDATE.0; in phases 1 and 2 it changes nothing, `PHASE` included, and answers OK; in phases 0 and
3 it is ProtocolViolation. -/
def Obligations.UpdateZeroIsANoOp : Prop :=
  (∀ w : Word32, decode w = .command .update0 ↔ w = 0x20000000) ∧
  ∀ s : State,
    (s.phase = .started ∨ s.phase = .absorbing → exec .update0 s = .next { s with rsps := s.rsps ++ [.ok] }) ∧
    (s.phase = .uninitialized ∨ s.phase = .finished →
      exec .update0 s = .next { s with rsps := s.rsps ++ [.protocolViolation] })

/-- Rules R57, R58, R59: the encodings; in phases 1 and 2, with `IDX < RATE`, the word's bytes are absorbed one at a time in the
order `b0`, `b1`, `b2`, `PHASE` becomes 2, the response is OK, no byte is emitted and nothing else changes; in phases 0 and 3 the
word is ProtocolViolation and changes nothing; with a bound rate at most one permutation runs. -/
def Obligations.UpdateAbsorbsItsBytes : Prop :=
  (∀ w : Word32,
    (w &&& 0xFFFFFF00 = 0x24000000 → decode w = .command (.update1 (w.extractLsb' 0 8))) ∧
    (w &&& 0xFFFF0000 = 0x28000000 → decode w = .command (.update2 (w.extractLsb' 0 8) (w.extractLsb' 8 8))) ∧
    (w &&& 0xFF000000 = 0x2C000000 →
      decode w = .command (.update3 (w.extractLsb' 0 8) (w.extractLsb' 8 8) (w.extractLsb' 16 8)))) ∧
  ∀ (b0 b1 b2 : Byte) (s : State),
    (s.phase = .started ∨ s.phase = .absorbing → s.ctx.idx.toNat < s.ctx.rate.toNat → s.ctx.rate.toNat ≤ 200 →
      exec (.update1 b0) s = .next { s with
        phase := .absorbing, ctx := s.ctx.absorbByte b0, rsps := s.rsps ++ [.ok] } ∧
      exec (.update2 b0 b1) s = .next { s with
        phase := .absorbing, ctx := (s.ctx.absorbByte b0).absorbByte b1, rsps := s.rsps ++ [.ok] } ∧
      exec (.update3 b0 b1 b2) s = .next { s with
        phase := .absorbing, ctx := ((s.ctx.absorbByte b0).absorbByte b1).absorbByte b2, rsps := s.rsps ++ [.ok] } ∧
      (72 ≤ s.ctx.rate.toNat → s.ctx.absorbPermutations [b0] ≤ 1 ∧ s.ctx.absorbPermutations [b0, b1] ≤ 1 ∧
        s.ctx.absorbPermutations [b0, b1, b2] ≤ 1)) ∧
    (s.phase = .uninitialized ∨ s.phase = .finished →
      exec (.update1 b0) s = .next { s with rsps := s.rsps ++ [.protocolViolation] } ∧
      exec (.update2 b0 b1) s = .next { s with rsps := s.rsps ++ [.protocolViolation] } ∧
      exec (.update3 b0 b1 b2) s = .next { s with rsps := s.rsps ++ [.protocolViolation] })

/-- Rules R56 to R59, R25, R10: the frame of UPDATE. When UPDATE.0 to UPDATE.3 answer a next state: `RATE`, `FOUT`, `DSFX`,
`OUT` and the host's part are unchanged and one response is added; and when the word does not reach the end of the block,
every state byte outside `IDX .. IDX + cnt - 1` is unchanged and `IDX` has moved on by `cnt`, unless the word was rejected and
nothing changed. -/
def Obligations.UpdateFrame : Prop :=
  ∀ (i : Instr) (bs : List Byte) (s t : State), updateBytes i = some bs → exec i s = .next t →
    t.ctx.rate = s.ctx.rate ∧ t.ctx.fout = s.ctx.fout ∧ t.ctx.dsfx = s.ctx.dsfx ∧ t.out = s.out ∧
    t.pending = s.pending ∧ t.cp = s.cp ∧ t.resets = s.resets ∧ (∃ r, t.rsps = s.rsps ++ [r]) ∧
    (s.phase = .started ∨ s.phase = .absorbing → s.ctx.idx.toNat + bs.length < s.ctx.rate.toNat →
      t.ctx.idx.toNat = s.ctx.idx.toNat + bs.length ∧
      ∀ k < 200, (k < s.ctx.idx.toNat ∨ s.ctx.idx.toNat + bs.length ≤ k) →
        stateByteRead t.ctx.lanes k = stateByteRead s.ctx.lanes k) ∧
    (s.phase = .uninitialized ∨ s.phase = .finished → t.ctx = s.ctx ∧ t.phase = s.phase)

/-- Rule R60: however a message is cut into UPDATE words, with any number of UPDATE.0 among them, the lanes, `IDX` and the
parameters come out the same, nothing is emitted, and `PHASE` is 2 when the message is not empty; after `n` bytes absorbed since
START `IDX = n mod RATE`, and the permutation has run `n div RATE` times. -/
def Obligations.ChunkIndependence : Prop :=
  (∀ (is js : List Instr) (bss css : List (List Byte)) (s : State),
    is.map updateBytes = bss.map some → js.map updateBytes = css.map some → bss.flatten = css.flatten →
    s.phase = .started ∨ s.phase = .absorbing → s.ctx.idx.toNat < s.ctx.rate.toNat → s.ctx.rate.toNat ≤ 200 →
    ∃ t u, execAll is s = .next t ∧ execAll js s = .next u ∧ t.ctx = u.ctx ∧ t.out = s.out ∧ u.out = s.out ∧
      t.ctx = s.ctx.absorbBytes bss.flatten ∧
      (bss.flatten ≠ [] → t.phase = .absorbing ∧ u.phase = .absorbing)) ∧
  (∀ (d : Descriptor) (m : List Byte), d ∈ vrom →
    ((Context.bind d).absorbBytes m).idx.toNat = m.length % d.rateBytes.toNat ∧
    (Context.bind d).absorbPermutations m = m.length / d.rateBytes.toNat)

/-- 20_memory.md section 5 (the capacity region is changed only by START and KeccakF): a byte absorbed without a wrap, and the two
padding XORs of FINISH, leave every state byte from `RATE` on as it was; an output byte is a state byte of the rate region. -/
def Obligations.CapacityIsUntouchedByBytes : Prop :=
  ∀ (c : Context) (b : Byte), c.idx.toNat < c.rate.toNat → c.rate.toNat ≤ 200 →
    (∀ k < 200, c.rate.toNat ≤ k →
      (c.idx.toNat + 1 < c.rate.toNat → stateByteRead (c.absorbByte b).lanes k = stateByteRead c.lanes k) ∧
      stateByteRead c.pad.lanes k = stateByteRead c.lanes k) ∧
    ∃ k < c.rate.toNat, c.outByte = stateByteRead c.lanes k

/-! ### Finalization (43_finish.md) -/

/-- Rule R61: SqueezeByte on a context with `IDX < RATE` emits the state byte at `IDX`, read before anything moves; then `IDX`
is one more, or 0 with one permutation at the end of the block. Nothing else changes. -/
def Obligations.SqueezeByteEffect : Prop :=
  ∀ (c : Context), c.idx.toNat < c.rate.toNat → c.rate.toNat ≤ 200 →
    (c.squeeze 1).1 = [stateByteRead c.lanes c.idx.toNat] ∧
    (c.squeeze 1).2.rate = c.rate ∧ (c.squeeze 1).2.fout = c.fout ∧ (c.squeeze 1).2.dsfx = c.dsfx ∧
    (c.idx.toNat + 1 < c.rate.toNat →
      (c.squeeze 1).2.lanes = c.lanes ∧ (c.squeeze 1).2.idx.toNat = c.idx.toNat + 1) ∧
    (c.idx.toNat + 1 = c.rate.toNat →
      (c.squeeze 1).2.lanes = keccakF c.lanes ∧ (c.squeeze 1).2.idx = 0)

/-- Rule R64: a fixed-digest variant's length is `FOUT` whatever `outlen` is; an XOF's is `outlen`, within the bounds, both ends
allowed, else FINISH is InvalidOutputLength; the bounds of `SBCORE-1` are 1 and 2^21, so 1 and 2,097,152 are accepted, 0 and
2,097,153 rejected. -/
def Obligations.OutputLengthRule : Prop :=
  (∀ (cfg : Config) (fout : BitVec 7) (n : BitVec 22), fout ≠ 0 → outputLength cfg fout n = some fout.toNat) ∧
  (∀ (cfg : Config) (n : BitVec 22),
    (cfg.outlenMin ≤ n.toNat ∧ n.toNat ≤ cfg.outlenMax → outputLength cfg 0 n = some n.toNat) ∧
    (n.toNat < cfg.outlenMin ∨ cfg.outlenMax < n.toNat → ∀ s : State,
      s.phase = .started ∨ s.phase = .absorbing → s.ctx.fout = 0 →
      finishWith cfg n s = .next { s with rsps := s.rsps ++ [.invalidOutputLength] })) ∧
  (∀ (n : BitVec 22) (s : State), exec (.finish n) s = finishWith sbcore1 n s) ∧
  sbcore1.outlenMin = 1 ∧ sbcore1.outlenMax = 2 ^ 21 ∧ sbcore1.Valid ∧
  outputLength sbcore1 0 1 = some 1 ∧ outputLength sbcore1 0 2097152 = some 2097152 ∧
  outputLength sbcore1 0 0 = none ∧ outputLength sbcore1 0 2097153 = none

/-- Rule R62: its encoding; in phases 1 and 2, with a good length and `IDX < RATE`, FINISH XORs `DSFX` at `IDX` and 0x80 at `RATE - 1`, permutes,
sets `IDX` to 0, emits `len` bytes and leaves phase 3 with OK, `IDX = len mod RATE` and the parameters unchanged; an XOF length
outside the bounds is InvalidOutputLength and changes nothing; in phases 0 and 3 FINISH is ProtocolViolation, whatever the
length. -/
def Obligations.FinishEmitsTheDigest : Prop :=
  (∀ w : Word32, w &&& 0xFFC00000 = 0x30000000 → decode w = .command (.finish (w.extractLsb' 0 22))) ∧
  ∀ (n : BitVec 22) (s : State),
    (s.phase = .started ∨ s.phase = .absorbing → s.ctx.idx.toNat < s.ctx.rate.toNat → s.ctx.rate.toNat ≤ 200 →
      ∀ len, (s.ctx.fout ≠ 0 ∧ len = s.ctx.fout.toNat ∨
          s.ctx.fout = 0 ∧ len = n.toNat ∧ 1 ≤ n.toNat ∧ n.toNat ≤ 2097152) →
      ∃ t, exec (.finish n) s = .next t ∧
        t = { s with
          phase := .finished, rsps := s.rsps ++ [.ok],
          ctx := (Context.squeeze len { s.ctx with
            lanes := keccakF (stateByteXor (stateByteXor s.ctx.lanes s.ctx.idx.toNat s.ctx.dsfx) (s.ctx.rate.toNat - 1) 0x80),
            idx := 0 }).2,
          out := s.out ++ (Context.squeeze len { s.ctx with
            lanes := keccakF (stateByteXor (stateByteXor s.ctx.lanes s.ctx.idx.toNat s.ctx.dsfx) (s.ctx.rate.toNat - 1) 0x80),
            idx := 0 }).1 } ∧
        t.out.length = s.out.length + len ∧ t.ctx.idx.toNat = len % s.ctx.rate.toNat ∧
        t.ctx.rate = s.ctx.rate ∧ t.ctx.fout = s.ctx.fout ∧ t.ctx.dsfx = s.ctx.dsfx) ∧
    (s.phase = .started ∨ s.phase = .absorbing → s.ctx.fout = 0 → n.toNat < 1 ∨ 2097152 < n.toNat →
      exec (.finish n) s = .next { s with rsps := s.rsps ++ [.invalidOutputLength] }) ∧
    (s.phase = .uninitialized ∨ s.phase = .finished →
      exec (.finish n) s = .next { s with rsps := s.rsps ++ [.protocolViolation] })

/-- Rules R62, R51, R20: the frame of FINISH and START. FINISH, when it answers a next state: the parameters and the host's part
are unchanged, what was emitted before stays at the front of `OUT`, one response is added; START: nothing is emitted, the
host's part is unchanged. (The lanes and `IDX` may all change: START zeroes them and FINISH permutes.) -/
def Obligations.FinishAndStartFrame : Prop :=
  (∀ (n : BitVec 22) (s t : State), exec (.finish n) s = .next t →
    t.ctx.rate = s.ctx.rate ∧ t.ctx.fout = s.ctx.fout ∧ t.ctx.dsfx = s.ctx.dsfx ∧
    t.pending = s.pending ∧ t.cp = s.cp ∧ t.resets = s.resets ∧
    (∃ bytes, t.out = s.out ++ bytes) ∧ (∃ r, t.rsps = s.rsps ++ [r]) ∧
    (t.phase ≠ .finished → t.ctx = s.ctx ∧ t.out = s.out ∧ t.phase = s.phase)) ∧
  (∀ (v : BitVec 3) (s t : State), exec (.start v) s = .next t →
    t.out = s.out ∧ t.pending = s.pending ∧ t.cp = s.cp ∧ t.resets = s.resets ∧ (∃ r, t.rsps = s.rsps ++ [r]) ∧
    (t.phase ≠ .started → t.ctx = s.ctx ∧ t.phase = s.phase))

/-- Rule R65: on an XOF context the `j`-th byte that an accepted FINISH emits does not depend on `outlen`: it is the state byte `j
mod RATE` of the state after step 3 and `j div RATE` further permutations; so the output for the smaller of two lengths is the
beginning of the output for the greater; after it no FINISH squeezes on. -/
def Obligations.OutputIsExtendable : Prop :=
  ∀ (s t u : State) (n k : BitVec 22), s.phase = .started ∨ s.phase = .absorbing → s.ctx.fout = 0 →
    n.toNat ≤ k.toNat → exec (.finish n) s = .next t → exec (.finish k) s = .next u →
    t.phase = .finished → u.phase = .finished →
    (∀ j < n.toNat, t.out[s.out.length + j]? = some (stateByteRead
      (keccakF^[j / s.ctx.rate.toNat]
        (keccakF (stateByteXor (stateByteXor s.ctx.lanes s.ctx.idx.toNat s.ctx.dsfx) (s.ctx.rate.toNat - 1) 0x80)))
      (j % s.ctx.rate.toNat))) ∧
    (∃ more, u.out = t.out ++ more ∧ more.length = k.toNat - n.toNat) ∧
    (∀ (n' : BitVec 22) (v : State), exec (.finish n') t = .next v → v.out = t.out)

/-- Rule R63: steps 1 to 4 of FINISH do what absorbing the padding bytes would do: the suffix byte, zeros, 0x80 at the last byte
of the block, one combined byte when `IDX = RATE - 1`; the combined byte is 0x86 or 0x9F. -/
def Obligations.FinishPadsTheBlock : Prop :=
  (∀ c : Context, c.idx.toNat < c.rate.toNat → c.rate.toNat ≤ 200 →
    c.closeAbsorption = c.absorbBytes (padBytes c.rate.toNat c.idx.toNat c.dsfx)) ∧
  (∀ c : Context, c.idx.toNat + 1 = c.rate.toNat → c.rate.toNat ≤ 200 →
    c.closeAbsorption.lanes = keccakF (stateByteXor c.lanes c.idx.toNat (c.dsfx ^^^ 0x80))) ∧
  ((0x06 : Byte) ^^^ 0x80 = 0x86 ∧ (0x1F : Byte) ^^^ 0x80 = 0x9F)

/-- Rule R66: from START to the end of an accepted FINISH, with `n` bytes absorbed and `len` bytes emitted, KeccakF runs once per
filled input block, once in finalization, and once per completed output block. Said of the lanes: absorption is `n div RATE`
blocks with one `keccakF` each and then the rest of the message without one, steps 1 to 4 of FINISH apply one, squeezing applies
`len div RATE`. And said of the cursor: it wraps that often, `(n div RATE) + 1 + (len div RATE)` with the 1 of finalization; for a
fixed-digest variant the last term is 0. -/
def Obligations.PermutationCount : Prop :=
  ∀ (d : Descriptor) (m : List Byte) (len : Nat), d ∈ vrom →
    (let rate := d.rateBytes.toNat
     let absorbed := (Context.bind d).absorbBytes m
     let closed := absorbed.closeAbsorption
     absorbed.lanes = xorBytes (m.drop (m.length / rate * rate)) 0
        ((List.range (m.length / rate)).foldl (fun a i => keccakF (xorBytes ((m.drop (i * rate)).take rate) 0 a)) Lanes.zero) ∧
     closed.lanes =
        keccakF (stateByteXor (stateByteXor absorbed.lanes (m.length % rate) d.domainSuffixByte) (rate - 1) 0x80) ∧
     (closed.squeeze len).2.lanes = keccakF^[len / rate] closed.lanes) ∧
    (Context.bind d).absorbPermutations m + 1 +
        ((Context.bind d).absorbBytes m).closeAbsorption.squeezePermutations len =
      m.length / d.rateBytes.toNat + 1 + len / d.rateBytes.toNat ∧
    (d.fixedOutputBytes ≠ 0 → d.fixedOutputBytes.toNat / d.rateBytes.toNat = 0)

/-- Rule R64, 93_implementation_defined.md U9: on a fixed-digest context every operand value of FINISH gives the same result. -/
def Obligations.FixedDigestIgnoresOutlen : Prop :=
  ∀ (s : State) (n k : BitVec 22), s.ctx.fout ≠ 0 → exec (.finish n) s = exec (.finish k) s

/-- Rule R62 (derived from R8): a FINISH rejected for its length may be followed by another with a good length, which does what
it would have done alone, after the one response of the rejected word. -/
def Obligations.RejectedFinishLeavesTheContext : Prop :=
  ∀ (s t u : State) (n k : BitVec 22), s.phase = .started ∨ s.phase = .absorbing →
    s.ctx.fout = 0 → n.toNat < 1 ∨ 2097152 < n.toNat →
    exec (.finish n) s = .next t → exec (.finish k) s = .next u →
    ∃ v, exec (.finish k) t = .next v ∧ v.phase = u.phase ∧ v.ctx = u.ctx ∧ v.out = u.out ∧
      ∃ r, u.rsps = s.rsps ++ [r] ∧ v.rsps = s.rsps ++ [.invalidOutputLength, r]

/-! ### Errors and the lifecycle (60_exceptions.md) -/

/-- Rules R71 and R16: the response codes, never 5, 6 or 7, different for different responses; the encoding of `PHASE`. -/
def Obligations.CodesOfResponsesAndPhases : Prop :=
  Rsp.ok.code = 0 ∧ Rsp.invalidOutputLength.code = 1 ∧ Rsp.invalidVariant.code = 2 ∧ Rsp.protocolViolation.code = 3 ∧
  Rsp.illegalCommand.code = 4 ∧ (∀ r q : Rsp, r.code = q.code → r = q) ∧ (∀ r : Rsp, r.code.toNat < 5) ∧
  Phase.uninitialized.code = 0 ∧ Phase.started.code = 1 ∧ Phase.absorbing.code = 2 ∧ Phase.finished.code = 3 ∧
  (∀ c : BitVec 2, ∃ p : Phase, p.code = c)

/-- Rules R8 and R72: a command that does not end with OK adds its response and changes nothing else: no lane, no control
register, `PHASE` included, no output byte; and so for every word of the step, an ILLEGAL one too, where only the host's pointer
moves on. -/
def Obligations.RejectionChangesNothing : Prop :=
  (∀ (i : Instr) (s t : State), exec i s = .next t →
    (∃ e, e ≠ .ok ∧ t = { s with rsps := s.rsps ++ [e] }) ∨ t.rsps = s.rsps ++ [.ok]) ∧
  (∀ (s t : State) (w : Word32) (rest : List HostAction), s.pending = .word w :: rest → step s = .next t →
    (∃ e, e ≠ .ok ∧ t = { s with rsps := s.rsps ++ [e], pending := rest, cp := s.cp + 1 }) ∨ t.rsps = s.rsps ++ [.ok])

/-- Rules R73, R74, R75: which response a command is rejected with, and exactly when; nothing changes; after InvalidVariant a START
with a good id succeeds. -/
def Obligations.EachErrorHasItsCause : Prop :=
  ∀ (i : Instr) (s t : State), exec i s = .next t →
    (t.rsps = s.rsps ++ [.invalidOutputLength] ↔
      (s.phase = .started ∨ s.phase = .absorbing) ∧ s.ctx.fout = 0 ∧
      ∃ n : BitVec 22, i = .finish n ∧ (n.toNat = 0 ∨ 2097152 < n.toNat)) ∧
    (t.rsps = s.rsps ++ [.invalidVariant] ↔
      s.phase = .uninitialized ∧ ∃ v : BitVec 3, i = .start v ∧ (v = 6 ∨ v = 7)) ∧
    (t.rsps = s.rsps ++ [.protocolViolation] ↔
      ((∃ v, i = .start v) ∧ (s.phase = .started ∨ s.phase = .absorbing ∨ s.phase = .finished)) ∨
      ((∀ v, i ≠ .start v) ∧ (s.phase = .uninitialized ∨ s.phase = .finished))) ∧
    (t.rsps ≠ s.rsps ++ [.ok] → t = { s with rsps := t.rsps }) ∧
    (t.rsps = s.rsps ++ [.invalidVariant] → ∀ v d, variantLookup v = some d →
      ∃ u, exec (.start v) t = .next u ∧ u.rsps = t.rsps ++ [.ok] ∧ u.phase = .started)

/-- Rule R76: a word that decodes to ILLEGAL is answered with IllegalCommand, code 4, in every phase, and nothing else of the
instance changes. -/
def Obligations.IllegalWordIsRejected : Prop :=
  Rsp.illegalCommand.code = 4 ∧
  ∀ (s : State) (w : Word32) (rest : List HostAction), s.pending = .word w :: rest → decode w = .illegal →
    step s = .next { s with rsps := s.rsps ++ [.illegalCommand], pending := rest, cp := s.cp + 1 }

/-- Rule R78: encoding first, in every phase; then the phase, whatever the operand; then the operand, InvalidVariant for START and
InvalidOutputLength for FINISH; one response. -/
def Obligations.CheckOrder : Prop :=
  (∀ (s t : State) (w : Word32) (rest : List HostAction), s.pending = .word w :: rest → decode w = .illegal →
    step s = .next t → t.rsps = s.rsps ++ [.illegalCommand]) ∧
  (∀ (i : Instr) (s : State), lifecycle i s.phase = none →
    exec i s = .next { s with rsps := s.rsps ++ [.protocolViolation] }) ∧
  (∀ (i : Instr) (s t : State), lifecycle i s.phase ≠ none → exec i s = .next t →
    t.rsps = s.rsps ++ [.ok] ∨
    ((∃ v, i = .start v) ∧ t.rsps = s.rsps ++ [.invalidVariant]) ∨
    ((∃ n, i = .finish n) ∧ t.rsps = s.rsps ++ [.invalidOutputLength]))

/-- Rule R84: the lifecycle table (`lifecycle`): where it has no edge, ProtocolViolation and nothing else; where it has one, the
command is accepted and leaves the phase of the table, or its operand is rejected and nothing else changes; an ILLEGAL word and a
reset, in every phase; bytes come out of an accepted FINISH only. -/
def Obligations.LifecycleTable : Prop :=
  (∀ (i : Instr) (s t : State), exec i s = .next t →
    match lifecycle i s.phase with
    | none => t = { s with rsps := s.rsps ++ [.protocolViolation] }
    | some p => (t.rsps = s.rsps ++ [.ok] ∧ t.phase = p) ∨
        ∃ e, (e = .invalidVariant ∨ e = .invalidOutputLength) ∧ t = { s with rsps := s.rsps ++ [e] }) ∧
  (∀ (s t : State) (w : Word32) (rest : List HostAction), s.pending = .word w :: rest → decode w = .illegal →
    step s = .next t → t.phase = s.phase ∧ t.rsps = s.rsps ++ [.illegalCommand]) ∧
  (∀ (s t : State) (rest : List HostAction), s.pending = .reset :: rest → step s = .next t → t.phase = .uninitialized) ∧
  (∀ (i : Instr) (s t : State), exec i s = .next t → t.out ≠ s.out →
    (∃ n, i = .finish n) ∧ t.phase = .finished ∧ t.rsps = s.rsps ++ [.ok])

/-- Rule R16 (derived there from R51, R56, R62, R84): Started and Absorbing differ in nothing a host can observe: from one context
a command ends alike in both phases, with the same response, output and context, and in the same phase or again in the one of the
two it was in. -/
def Obligations.StartedAndAbsorbingAlike : Prop :=
  ∀ (i : Instr) (s : State), s.phase = .started →
    (∃ f, exec i s = .fault f ∧ exec i { s with phase := .absorbing } = .fault f) ∨
    ∃ t u, exec i s = .next t ∧ exec i { s with phase := .absorbing } = .next u ∧
      t.ctx = u.ctx ∧ t.out = u.out ∧ t.rsps = u.rsps ∧ t.pending = u.pending ∧ t.cp = u.cp ∧
      (t.phase = u.phase ∨ t.phase = .started ∧ u.phase = .absorbing)

/-- Rule R80: a rejected command presented again in the state it left is rejected again with the same code; any number of rejected
commands in a row leaves the state as it was before the first, but for the log of their responses. -/
def Obligations.RejectionRepeats : Prop :=
  (∀ (i : Instr) (s t : State) (e : Rsp), exec i s = .next t → e ≠ .ok → t.rsps = s.rsps ++ [e] →
    exec i t = .next { s with rsps := s.rsps ++ [e, e] }) ∧
  (∀ (is : List Instr) (s t : State) (es : List Rsp), execAll is s = .next t → t.rsps = s.rsps ++ es → .ok ∉ es →
    t = { s with rsps := s.rsps ++ es } ∧ es.length = is.length)

/-! ### Reset and the whole machine (70_reset_and_hazards.md, 00_scope.md) -/

/-- Rule R86: a pulse of `rst`, in any phase, leaves phase 0, emits no byte and gives no response; it is the only way out of phase 3
and the only way back to phase 0; power-on counts as a reset. (`OUT` restarts empty, rule R87; what the lanes and the other
registers hold afterwards is not stated. That the action is used up and `cp` moves on is `OneResponsePerWord`'s, log 3.) -/
def Obligations.ResetPulse : Prop :=
  (∀ (s : State) (rest : List HostAction), s.pending = .reset :: rest →
    ∃ t, step s = .next t ∧ t.phase = .uninitialized ∧ t.out = [] ∧ t.rsps = s.rsps) ∧
  (∀ s t : State, step s = .next t →
    (s.phase = .finished → t.phase ≠ .finished → ∃ rest, s.pending = .reset :: rest) ∧
    (s.phase ≠ .uninitialized → t.phase = .uninitialized → ∃ rest, s.pending = .reset :: rest)) ∧
  State.reset.phase = .uninitialized

/-- Rules R86, R87, R19: after power-on `PHASE` = 0, `OUT` is empty and `cp` = 0. -/
def Obligations.PowerOnPhase : Prop :=
  State.reset.phase = .uninitialized ∧ State.reset.out = [] ∧ State.reset.cp = 0

/-- Rule R87: what the lanes and the registers hold in phase 0 is unobservable: two machines that differ only in it give the same
responses and output for ever, and the same context from the first accepted START on. -/
def Obligations.ResetContentsUnobservable : Prop :=
  ∀ (n : Nat) (s : State) (c : Context), s.phase = .uninitialized →
    SameToTheHost (core.run n s) (core.run n { s with ctx := c })

/-- The invariant holds at power-on (rules R17, R18, R84). -/
def Obligations.InvariantAtReset : Prop := State.reset.Inv

/-- Rules R17, R18, R84: every step keeps the invariant: a context in phases 1 to 3 has the parameters of one row of `VROM` and
`IDX < RATE`; in phase 1 it is as START left it; nothing is emitted before phase 3; in phase 3 a digest has been emitted and
`IDX` is its length modulo `RATE`. -/
def Obligations.InvariantKeptByEveryStep : Prop := ∀ s t : State, s.Inv → step s = .next t → t.Inv

/-- Rule R7: `Step` is total: with the invariant every step has a next state, and so every command completes (rule R92). -/
def Obligations.EveryStepCompletes : Prop := ∀ s : State, s.Inv → ∃ t, step s = .next t

/-- Rules R7, R19, R36: when the host presents a word that decodes to a command, the step is `exec` of it after the host's
pointer has moved past the word. By the model's choice (log 3, DESIGN CHOICE) a word placed by `withFetchWord` is the one the next
step runs. With nothing presented nothing changes (log 9, DEDUCED from 60_exceptions.md section 10, "between commands the block
simply waits for the next word", and rule R86, "after reset the block waits for a command"). -/
def Obligations.StepRunsTheDecodedCommand : Prop :=
  (∀ (s : State) (w : Word32) (i : Instr) (rest : List HostAction), s.pending = .word w :: rest → decode w = .command i →
    step s = exec i { s with pending := rest, cp := s.cp + 1 }) ∧
  (∀ (s : State) (w : Nat) (i : Instr), decodeTableWord 32 w = some i →
    step (s.withFetchWord 32 w) = exec i { s with pending := s.pending.tail, cp := s.cp + 1 }) ∧
  (∀ s : State, s.pending = [] → step s = .next s)

/-- Rules R19, R30, R71: a word gets exactly one response, a pulse of `rst` none, and the host's `cp` is one more after every command
whatever its response. The model's choices here: that a pulse of `rst` also adds one to `cp`, and that an action is used up from a
list (log 3, DESIGN CHOICE; rule R19 moves `cp` after a command), and that the responses before a pulse are kept (log 4, DEDUCED). -/
def Obligations.OneResponsePerWord : Prop :=
  ∀ (s t : State) (x : HostAction) (rest : List HostAction), s.pending = x :: rest → step s = .next t →
    t.pending = rest ∧ t.cp = s.cp + 1 ∧
    match x with
    | .word _ => ∃ r, t.rsps = s.rsps ++ [r]
    | .reset => t.rsps = s.rsps

/-- Rules R39, R62, R63, R65: the one-shot DIGEST, from any state whatever: RESET, START, the UPDATE words of the message and FINISH
end in phase 3 with every response OK, and the bytes emitted are the first `len` bytes of the sponge of the variant on the
message, said block by block. That the responses before the RESET are kept is log 4 (DEDUCED); that the host's actions are a list
is log 3. -/
def Obligations.DigestIsTheSponge : Prop :=
  ∀ (s : State) (v : BitVec 3) (d : Descriptor) (n : BitVec 22) (m : List Byte) (len : Nat) (rest : List HostAction),
    variantLookup v = some d → outputLength sbcore1 d.fixedOutputBytes n = some len →
    s.pending = digestActions v n m ++ rest →
    ∃ t, core.run (digestActions v n m).length s = .next t ∧ t.phase = .finished ∧ t.out = sponge d m len ∧
      t.pending = rest ∧ t.rsps = s.rsps ++ List.replicate ((digestActions v n m).length - 1) .ok

/-- Rule R39: UPDATE with `L` bytes expands to `ceil(L/3)` words, which carry the bytes in order, by the canonical cut: word `i`
carries bytes `3i` to `3i + 2`, the last word what is left. With no byte R39 allows one UPDATE.0 or nothing; that it is one
UPDATE.0 is the model's choice (log 13, DESIGN CHOICE). -/
def Obligations.LongUpdateExpansion : Prop :=
  ∀ m : List Byte,
    (∃ bss : List (List Byte), (expandUpdate m).map updateBytes = bss.map some ∧ bss.flatten = m) ∧
    (m ≠ [] → (expandUpdate m).length = (m.length + 2) / 3 ∧ .update0 ∉ expandUpdate m) ∧
    (∀ i < (m.length + 2) / 3, ((expandUpdate m)[i]?).bind updateBytes = some ((m.drop (3 * i)).take 3)) ∧
    expandUpdate [] = [.update0]

/-- Rule R39: the host's check of DIGEST: a length outside the bounds on an XOF, or no variant, is reported and no command is
presented; otherwise the actions are RESET, START, the UPDATE words, FINISH. -/
def Obligations.DigestHostCheck : Prop :=
  ∀ (v : BitVec 3) (n : BitVec 22) (m : List Byte),
    (v.toNat ≤ 1 → n.toNat < 1 ∨ 2097152 < n.toNat →
      expandLine sbcore1 (.digest v n m) = .error .invalidOutputLength) ∧
    (6 ≤ v.toNat → expandLine sbcore1 (.digest v n m) = .error .invalidVariant) ∧
    (v.toNat ≤ 1 → 1 ≤ n.toNat → n.toNat ≤ 2097152 →
      expandLine sbcore1 (.digest v n m) = .ok (digestActions v n m)) ∧
    (2 ≤ v.toNat → v.toNat ≤ 5 → expandLine sbcore1 (.digest v n m) = .ok (digestActions v n m)) ∧
    digestActions v n m = [.reset, .word (encode (.start v))] ++ (expandUpdate m).map (fun i => .word (encode i)) ++
      [.word (encode (.finish n))]

/-! ### Inside a command (R91, R30) and many instances (R83) -/

/-- Rule R91: the finer model agrees with the machine at command boundaries: from between two commands, with a host that takes
every byte, the micro steps of one action end between commands in exactly the state that the one step leaves. What `OUTREM` and
`RND` hold between commands is the model's choice (log 11): 0 and none. -/
def Obligations.MicroStepsRefineTheStep : Prop :=
  ∀ s t : State, step s = .next t →
    ∃ n, Micro.run (List.replicate n true) (Micro.idle s) = .next (Micro.idle t)

/-- Rules R89, R91: the host may stall the output as long as it likes: whatever it did with `out_ready` so far, once it takes the
bytes the command ends in the same state. The micro steps, and `OUTREM` and `RND` between commands, are the model's choice
(log 11). -/
def Obligations.StallingChangesNothing : Prop :=
  ∀ (s t : State) (x : HostAction) (readies : List Bool), s.pending = [x] → step s = .next t →
    ∃ n, Micro.run (readies ++ List.replicate n true) (Micro.idle s) = .next (Micro.idle t)

/-- Rules R30, R87, R91: between commands the ports are idle; while a command is in progress `cmd_ready` is low; a stalled output
byte stays; `out_last` is high with the last byte (`OUTREM` = 1) and only there. What one micro step is (that a byte not taken
stays for one tick, that a byte taken lowers `OUTREM` by one in one tick) is the model's choice (log 11, DESIGN CHOICE): the spec
gives the ports no timing. -/
def Obligations.PortsOfTheBlock : Prop :=
  (∀ s : State, (Micro.idle s).ports = { cmdReady := true, rsp := none, out := none }) ∧
  (∀ m : Micro, m.activity ≠ .idle → m.ports.cmdReady = false) ∧
  (∀ (m : Micro) (b : Byte) (last : Bool), m.ports.out = some (b, last) →
    m.tick false = .next m ∧ (last = true ↔ m.outrem = 1) ∧
    ∃ m', m.tick true = .next m' ∧ m'.core.out = m.core.out ++ [b] ∧ m'.outrem = m.outrem - 1) ∧
  (∀ (m m' : Micro) (r : Bool), m.tick r = .next m' → m'.core.rsps ≠ m.core.rsps →
    ∃ q : Rsp, m.ports.rsp = some q.code ∧ m'.core.rsps = m.core.rsps ++ [q])

/-- Rule R83: in a run of a chip, under any interleaving, each instance ends where it would have ended alone, after as many steps
of its own. -/
def Obligations.InstancesAreIndependent : Prop :=
  ∀ (turns : List Nat) (c c' : Chip), chipRun turns c = .next c' →
    c'.cores.length = c.cores.length ∧
    ∀ (j : Nat) (s : State), c.cores[j]? = some s →
      ∃ t, core.run (turns.count j) s = .next t ∧ c'.cores[j]? = some t

/-- Log 5, resting on rule R55 ("Defined only when"): the one stop of the model, and where it is: UPDATE.1 to UPDATE.3, and FINISH
with a good length, in phase 1 or 2 on a context with `IDX ≥ RATE` or `RATE > 200`; a state with the invariant is none of these
(`EveryStepCompletes`). -/
def Obligations.CursorOutsideRateStops : Prop :=
  ∀ (s : State) (b0 b1 b2 : Byte) (n : BitVec 22), s.phase = .started ∨ s.phase = .absorbing →
    s.ctx.rate.toNat ≤ s.ctx.idx.toNat ∨ 200 < s.ctx.rate.toNat →
    exec (.update1 b0) s = .fault .cursorOutsideRate ∧ exec (.update2 b0 b1) s = .fault .cursorOutsideRate ∧
    exec (.update3 b0 b1 b2) s = .fault .cursorOutsideRate ∧
    (s.ctx.fout ≠ 0 ∨ 1 ≤ n.toNat ∧ n.toNat ≤ 2097152 → exec (.finish n) s = .fault .cursorOutsideRate)

/-! ### START completes -/

/-- Rule R51: START completes. In phase 0, for every id 0 to 5, it has a row of `VROM` and answers the next state of the rule;
and in every phase, for every id, it answers a next state (a rejection is one, rule R72). -/
def Obligations.StartCompletes : Prop :=
  ∀ (v : BitVec 3) (s : State),
    (s.phase = .uninitialized → v.toNat ≤ 5 →
      ∃ d, variantLookup v = some d ∧ exec (.start v) s = .next { s with
        phase := .started, rsps := s.rsps ++ [.ok],
        ctx := { lanes := Lanes.zero, rate := d.rateBytes, fout := d.fixedOutputBytes, dsfx := d.domainSuffixByte, idx := 0 } }) ∧
    ∃ t, exec (.start v) s = .next t
end

