-- ==== Sys2Proof/Laws/Decode.lean ====
section
/-!
SUPPORT. The decoder and the encoder as arithmetic on the word's number: what a mask test says, what a field is, what
each encoded word is.
-/

namespace Sys2Proof

/-- A test under a mask that keeps the bits from `k` up says what the word's upper part is. -/
theorem and_highMask_eq_iff (w : Word32) (k : Nat) (hk : k ≤ 32) (c : Nat) (hc : c < 2 ^ (32 - k)) :
    w &&& BitVec.ofNat 32 (2 ^ 32 - 2 ^ k) = BitVec.ofNat 32 (c * 2 ^ k) ↔ w.toNat / 2 ^ k = c := by
  have hmask : BitVec.ofNat 32 (2 ^ 32 - 2 ^ k) = BitVec.allOnes 32 <<< k := by
    interval_cases k <;> decide
  have hand : w &&& BitVec.ofNat 32 (2 ^ 32 - 2 ^ k) = (w >>> k) <<< k := by
    rw [hmask]
    apply BitVec.eq_of_getLsbD_eq
    intro i hi
    rcases Nat.lt_or_ge i k with h | h
    · simp [h]
    · have hik : k + (i - k) = i := by omega
      have hki : i - k < 32 := by omega
      simp only [BitVec.getLsbD_and, BitVec.getLsbD_shiftLeft, BitVec.getLsbD_ushiftRight, BitVec.getLsbD_allOnes,
        hi, hik, hki, Nat.not_lt.2 h, decide_true, decide_false, Bool.not_false, Bool.true_and, Bool.and_true]
  have hpow : 2 ^ (32 - k) * 2 ^ k = 2 ^ 32 := by rw [← pow_add, Nat.sub_add_cancel hk]
  have hlt : c * 2 ^ k < 2 ^ 32 := hpow ▸ Nat.mul_lt_mul_of_pos_right hc (by positivity)
  have hlt' : w.toNat / 2 ^ k * 2 ^ k < 2 ^ 32 := lt_of_le_of_lt (Nat.div_mul_le_self _ _) w.isLt
  rw [hand, ← BitVec.toNat_inj, BitVec.toNat_shiftLeft, BitVec.toNat_ushiftRight, BitVec.toNat_ofNat,
    Nat.shiftLeft_eq, Nat.shiftRight_eq_div_pow, Nat.mod_eq_of_lt hlt, Nat.mod_eq_of_lt hlt']
  exact Nat.mul_left_inj (by positivity)

/-- The opcode map as one chain of mask tests. -/
theorem decode_chain (w : Word32) : decode w =
    if w &&& 0xFFFFFFF8 = 0x10000000 then .command (.start (variantOperand w))
    else if w &&& 0xFFFFFFFF = 0x20000000 then .command .update0
    else if w &&& 0xFFFFFF00 = 0x24000000 then .command (.update1 (b0Operand w))
    else if w &&& 0xFFFF0000 = 0x28000000 then .command (.update2 (b0Operand w) (b1Operand w))
    else if w &&& 0xFF000000 = 0x2C000000 then .command (.update3 (b0Operand w) (b1Operand w) (b2Operand w))
    else if w &&& 0xFFC00000 = 0x30000000 then .command (.finish (outlenOperand w))
    else .illegal := rfl

/-- The opcode map by the word's upper part: START bits 31..3, UPDATE.0 all bits, UPDATE.1 bits 31..8, and so on. -/
theorem decode_by_upper_part (w : Word32) : decode w =
    if w.toNat / 8 = 0x2000000 then .command (.start (variantOperand w))
    else if w.toNat = 0x20000000 then .command .update0
    else if w.toNat / 256 = 0x240000 then .command (.update1 (b0Operand w))
    else if w.toNat / 65536 = 0x2800 then .command (.update2 (b0Operand w) (b1Operand w))
    else if w.toNat / 16777216 = 0x2C then .command (.update3 (b0Operand w) (b1Operand w) (b2Operand w))
    else if w.toNat / 4194304 = 0xC0 then .command (.finish (outlenOperand w))
    else .illegal := by
  have h3 := and_highMask_eq_iff w 3 (by decide) 0x2000000 (by decide)
  have h0 := and_highMask_eq_iff w 0 (by decide) 0x20000000 (by decide)
  have h8 := and_highMask_eq_iff w 8 (by decide) 0x240000 (by decide)
  have h16 := and_highMask_eq_iff w 16 (by decide) 0x2800 (by decide)
  have h24 := and_highMask_eq_iff w 24 (by decide) 0x2C (by decide)
  have h22 := and_highMask_eq_iff w 22 (by decide) 0xC0 (by decide)
  norm_num at h3 h0 h8 h16 h24 h22
  rw [decode_chain]
  simp only [BitVec.ofNat_eq_ofNat, h3, h0, h8, h16, h24, h22]

/-- A field of a word as a number (rule R3). -/
theorem field_toNat (w : Word32) (lo len : Nat) : (w.extractLsb' lo len).toNat = w.toNat / 2 ^ lo % 2 ^ len := by
  simp [BitVec.extractLsb'_toNat, Nat.shiftRight_eq_div_pow]

/-- A concatenation as a number. -/
theorem concat_toNat {m n : Nat} (x : BitVec m) (y : BitVec n) : (x ++ y).toNat = x.toNat * 2 ^ n + y.toNat := by
  rw [BitVec.toNat_append, Nat.shiftLeft_eq, Nat.mul_comm, ← Nat.two_pow_add_eq_or_of_lt y.isLt]

theorem encode_start_toNat (v : BitVec 3) : (encode (.start v)).toNat = 0x10000000 + v.toNat := by
  simp only [encode, concat_toNat, BitVec.toNat_ofNat, BitVec.ofNat_eq_ofNat]; omega

theorem encode_update0_toNat : (encode .update0).toNat = 0x20000000 := by decide

theorem encode_update1_toNat (b0 : BitVec 8) : (encode (.update1 b0)).toNat = 0x24000000 + b0.toNat := by
  simp only [encode, concat_toNat, BitVec.toNat_ofNat, BitVec.ofNat_eq_ofNat]; omega

theorem encode_update2_toNat (b0 b1 : BitVec 8) :
    (encode (.update2 b0 b1)).toNat = 0x28000000 + b1.toNat * 256 + b0.toNat := by
  simp only [encode, concat_toNat, BitVec.toNat_ofNat, BitVec.ofNat_eq_ofNat]; omega

theorem encode_update3_toNat (b0 b1 b2 : BitVec 8) :
    (encode (.update3 b0 b1 b2)).toNat = 0x2C000000 + b2.toNat * 65536 + b1.toNat * 256 + b0.toNat := by
  simp only [encode, concat_toNat, BitVec.toNat_ofNat, BitVec.ofNat_eq_ofNat]; omega

theorem encode_finish_toNat (n : BitVec 22) : (encode (.finish n)).toNat = 0x30000000 + n.toNat := by
  simp only [encode, concat_toNat, BitVec.toNat_ofNat, BitVec.ofNat_eq_ofNat]; omega

/-- The word of a table row with 32 bits is the number itself. -/
theorem tableWord_32 (w : Nat) : tableWord 32 w = BitVec.ofNat 32 w := by
  simp [tableWord, BitVec.toNat_eq]

end Sys2Proof
end

