-- ==== Sys2Proof/Laws/State.lean ====
section
/-!
SUPPORT. One lemma per field per update, each true by definition and tagged for simp, so that no later proof unfolds a
record update.
-/

namespace Sys2Proof.Machine

@[simp] theorem Context.permute_lanes (c : Context) : c.permute.lanes = keccakF c.lanes := rfl
@[simp] theorem Context.permute_rate (c : Context) : c.permute.rate = c.rate := rfl
@[simp] theorem Context.permute_fout (c : Context) : c.permute.fout = c.fout := rfl
@[simp] theorem Context.permute_dsfx (c : Context) : c.permute.dsfx = c.dsfx := rfl
@[simp] theorem Context.permute_idx (c : Context) : c.permute.idx = c.idx := rfl

@[simp] theorem Context.xorByte_lanes (c : Context) (k : Nat) (b : Byte) : (c.xorByte k b).lanes = stateByteXor c.lanes k b := rfl
@[simp] theorem Context.xorByte_rate (c : Context) (k : Nat) (b : Byte) : (c.xorByte k b).rate = c.rate := rfl
@[simp] theorem Context.xorByte_fout (c : Context) (k : Nat) (b : Byte) : (c.xorByte k b).fout = c.fout := rfl
@[simp] theorem Context.xorByte_dsfx (c : Context) (k : Nat) (b : Byte) : (c.xorByte k b).dsfx = c.dsfx := rfl
@[simp] theorem Context.xorByte_idx (c : Context) (k : Nat) (b : Byte) : (c.xorByte k b).idx = c.idx := rfl

@[simp] theorem Context.advance_lanes (c : Context) : c.advance.lanes = c.lanes := rfl
@[simp] theorem Context.advance_rate (c : Context) : c.advance.rate = c.rate := rfl
@[simp] theorem Context.advance_fout (c : Context) : c.advance.fout = c.fout := rfl
@[simp] theorem Context.advance_dsfx (c : Context) : c.advance.dsfx = c.dsfx := rfl
@[simp] theorem Context.advance_idx (c : Context) : c.advance.idx = BitVec.ofNat 8 ((c.idx.toNat + 1) % c.rate.toNat) := rfl

@[simp] theorem Context.rewind_lanes (c : Context) : c.rewind.lanes = c.lanes := rfl
@[simp] theorem Context.rewind_rate (c : Context) : c.rewind.rate = c.rate := rfl
@[simp] theorem Context.rewind_fout (c : Context) : c.rewind.fout = c.fout := rfl
@[simp] theorem Context.rewind_dsfx (c : Context) : c.rewind.dsfx = c.dsfx := rfl
@[simp] theorem Context.rewind_idx (c : Context) : c.rewind.idx = 0 := rfl

@[simp] theorem Context.bind_lanes (d : Descriptor) : (Context.bind d).lanes = Lanes.zero := rfl
@[simp] theorem Context.bind_rate (d : Descriptor) : (Context.bind d).rate = d.rateBytes := rfl
@[simp] theorem Context.bind_fout (d : Descriptor) : (Context.bind d).fout = d.fixedOutputBytes := rfl
@[simp] theorem Context.bind_dsfx (d : Descriptor) : (Context.bind d).dsfx = d.domainSuffixByte := rfl
@[simp] theorem Context.bind_idx (d : Descriptor) : (Context.bind d).idx = 0 := rfl

@[simp] theorem State.respond_phase (r : Rsp) (s : State) : (s.respond r).phase = s.phase := rfl
@[simp] theorem State.respond_ctx (r : Rsp) (s : State) : (s.respond r).ctx = s.ctx := rfl
@[simp] theorem State.respond_out (r : Rsp) (s : State) : (s.respond r).out = s.out := rfl
@[simp] theorem State.respond_rsps (r : Rsp) (s : State) : (s.respond r).rsps = s.rsps ++ [r] := rfl
@[simp] theorem State.respond_pending (r : Rsp) (s : State) : (s.respond r).pending = s.pending := rfl
@[simp] theorem State.respond_cp (r : Rsp) (s : State) : (s.respond r).cp = s.cp := rfl
@[simp] theorem State.respond_resets (r : Rsp) (s : State) : (s.respond r).resets = s.resets := rfl

@[simp] theorem State.present_phase (s : State) : s.present.phase = s.phase := rfl
@[simp] theorem State.present_ctx (s : State) : s.present.ctx = s.ctx := rfl
@[simp] theorem State.present_out (s : State) : s.present.out = s.out := rfl
@[simp] theorem State.present_rsps (s : State) : s.present.rsps = s.rsps := rfl
@[simp] theorem State.present_pending (s : State) : s.present.pending = s.pending.tail := rfl
@[simp] theorem State.present_cp (s : State) : s.present.cp = s.cp + 1 := rfl
@[simp] theorem State.present_resets (s : State) : s.present.resets = s.resets := rfl

@[simp] theorem State.hostReset_phase (s : State) : s.hostReset.phase = .uninitialized := rfl
@[simp] theorem State.hostReset_ctx (s : State) : s.hostReset.ctx = Context.afterReset s.resets := rfl
@[simp] theorem State.hostReset_out (s : State) : s.hostReset.out = [] := rfl
@[simp] theorem State.hostReset_rsps (s : State) : s.hostReset.rsps = s.rsps := rfl
@[simp] theorem State.hostReset_pending (s : State) : s.hostReset.pending = s.pending := rfl
@[simp] theorem State.hostReset_cp (s : State) : s.hostReset.cp = s.cp := rfl
@[simp] theorem State.hostReset_resets (s : State) : s.hostReset.resets = s.resets + 1 := rfl

@[simp] theorem State.offerWord_phase (s : State) (w : Word32) : (s.offerWord w).phase = s.phase := rfl
@[simp] theorem State.offerWord_ctx (s : State) (w : Word32) : (s.offerWord w).ctx = s.ctx := rfl
@[simp] theorem State.offerWord_out (s : State) (w : Word32) : (s.offerWord w).out = s.out := rfl
@[simp] theorem State.offerWord_rsps (s : State) (w : Word32) : (s.offerWord w).rsps = s.rsps := rfl
@[simp] theorem State.offerWord_pending (s : State) (w : Word32) : (s.offerWord w).pending = .word w :: s.pending.tail := rfl
@[simp] theorem State.offerWord_cp (s : State) (w : Word32) : (s.offerWord w).cp = s.cp := rfl
@[simp] theorem State.offerWord_resets (s : State) (w : Word32) : (s.offerWord w).resets = s.resets := rfl

@[simp] theorem Micro.idle_core (s : State) : (Micro.idle s).core = s := rfl
@[simp] theorem Micro.idle_activity (s : State) : (Micro.idle s).activity = .idle := rfl
@[simp] theorem Micro.idle_rnd (s : State) : (Micro.idle s).rnd = none := rfl
@[simp] theorem Micro.idle_outrem (s : State) : (Micro.idle s).outrem = 0 := rfl

@[simp] theorem Micro.answer_core (r : Rsp) (m : Micro) : (m.answer r).core = m.core := rfl
@[simp] theorem Micro.answer_activity (r : Rsp) (m : Micro) : (m.answer r).activity = .responding r := rfl
@[simp] theorem Micro.answer_rnd (r : Rsp) (m : Micro) : (m.answer r).rnd = m.rnd := rfl
@[simp] theorem Micro.answer_outrem (r : Rsp) (m : Micro) : (m.answer r).outrem = m.outrem := rfl

@[simp] theorem Micro.withContext_core (c : Context) (m : Micro) : (m.withContext c).core = { m.core with ctx := c } := rfl
@[simp] theorem Micro.withContext_activity (c : Context) (m : Micro) : (m.withContext c).activity = m.activity := rfl
@[simp] theorem Micro.withContext_rnd (c : Context) (m : Micro) : (m.withContext c).rnd = m.rnd := rfl
@[simp] theorem Micro.withContext_outrem (c : Context) (m : Micro) : (m.withContext c).outrem = m.outrem := rfl

@[simp] theorem Micro.withPhase_core (p : Phase) (m : Micro) : (m.withPhase p).core = { m.core with phase := p } := rfl
@[simp] theorem Micro.withPhase_activity (p : Phase) (m : Micro) : (m.withPhase p).activity = m.activity := rfl
@[simp] theorem Micro.withPhase_rnd (p : Phase) (m : Micro) : (m.withPhase p).rnd = m.rnd := rfl
@[simp] theorem Micro.withPhase_outrem (p : Phase) (m : Micro) : (m.withPhase p).outrem = m.outrem := rfl

@[simp] theorem Micro.afterByte_core (c : Context) (m : Micro) : (m.afterByte c).core = { m.core with ctx := c } := rfl
@[simp] theorem Micro.afterByte_activity (c : Context) (m : Micro) : (m.afterByte c).activity = m.activity := rfl
@[simp] theorem Micro.afterByte_rnd (c : Context) (m : Micro) : (m.afterByte c).rnd = if c.wrapped then some 0 else none := rfl
@[simp] theorem Micro.afterByte_outrem (c : Context) (m : Micro) : (m.afterByte c).outrem = m.outrem := rfl

end Sys2Proof.Machine
end

