-- ==== Sys2Proof/Laws/Ops.lean ====
section
/-!
SUPPORT. What each shared operation can do, said once: the accessors of the state-byte space, the byte operations, the
two ways a command is answered, and the meanings.
-/

namespace Sys2Proof.Machine

/-! ### The state-byte space -/

theorem stateByteRead_of_lt (a : Lanes) {k : Nat} (h : k / 8 < 25) :
    stateByteRead a k = laneByte a[k / 8] (k % 8) := by
  simp [stateByteRead, Vector.getElem?_eq_getElem h]

theorem stateByteXor_of_lt (a : Lanes) {k : Nat} (b : Byte) (h : k / 8 < 25) :
    stateByteXor a k b = a.set (k / 8) (a[k / 8] ^^^ byteInLane b (k % 8)) := by
  simp [stateByteXor, h]

/-- The one lane a byte XOR writes. -/
theorem stateByteXor_getElem_same (a : Lanes) {k : Nat} (b : Byte) (h : k / 8 < 25) :
    (stateByteXor a k b)[k / 8] = a[k / 8] ^^^ byteInLane b (k % 8) := by
  simp [stateByteXor_of_lt a b h]

/-- Every other lane is as it was. -/
theorem stateByteXor_getElem_other (a : Lanes) (k : Nat) (b : Byte) {i : Nat} (hi : i < 25) (hne : i ≠ k / 8) :
    (stateByteXor a k b)[i] = a[i] := by
  unfold stateByteXor
  split
  · rw [Vector.getElem_set_ne]; omega
  · rfl

/-! ### The cursor -/

theorem Context.inRange_iff (c : Context) : c.inRange = true ↔ c.idx.toNat < c.rate.toNat ∧ c.rate.toNat ≤ 200 := by
  simp [Context.inRange]

/-- The cursor after an increment (rule R48: no wrap of the register itself). -/
theorem Context.advance_idx_toNat (c : Context) (h : c.inRange = true) :
    c.advance.idx.toNat = (c.idx.toNat + 1) % c.rate.toNat := by
  have h' := c.inRange_iff.1 h
  have : (c.idx.toNat + 1) % c.rate.toNat < c.rate.toNat := Nat.mod_lt _ (by omega)
  simp only [Context.advance_idx, BitVec.toNat_ofNat]
  omega

@[simp] theorem Context.permuteIfWrapped_rate (c : Context) : c.permuteIfWrapped.rate = c.rate := by
  unfold Context.permuteIfWrapped; split <;> rfl

@[simp] theorem Context.permuteIfWrapped_fout (c : Context) : c.permuteIfWrapped.fout = c.fout := by
  unfold Context.permuteIfWrapped; split <;> rfl

@[simp] theorem Context.permuteIfWrapped_dsfx (c : Context) : c.permuteIfWrapped.dsfx = c.dsfx := by
  unfold Context.permuteIfWrapped; split <;> rfl

@[simp] theorem Context.permuteIfWrapped_idx (c : Context) : c.permuteIfWrapped.idx = c.idx := by
  unfold Context.permuteIfWrapped; split <;> rfl

@[simp] theorem Context.takeByte_rate (b : Byte) (c : Context) : (c.takeByte b).rate = c.rate := rfl
@[simp] theorem Context.takeByte_fout (b : Byte) (c : Context) : (c.takeByte b).fout = c.fout := rfl
@[simp] theorem Context.takeByte_dsfx (b : Byte) (c : Context) : (c.takeByte b).dsfx = c.dsfx := rfl
@[simp] theorem Context.takeByte_idx (b : Byte) (c : Context) : (c.takeByte b).idx = c.advance.idx := rfl
@[simp] theorem Context.takeByte_lanes (b : Byte) (c : Context) :
    (c.takeByte b).lanes = stateByteXor c.lanes c.idx.toNat b := rfl

@[simp] theorem Context.absorbByte_rate (b : Byte) (c : Context) : (c.absorbByte b).rate = c.rate := by
  simp [Context.absorbByte]
@[simp] theorem Context.absorbByte_fout (b : Byte) (c : Context) : (c.absorbByte b).fout = c.fout := by
  simp [Context.absorbByte]
@[simp] theorem Context.absorbByte_dsfx (b : Byte) (c : Context) : (c.absorbByte b).dsfx = c.dsfx := by
  simp [Context.absorbByte]
theorem Context.absorbByte_idx (b : Byte) (c : Context) : (c.absorbByte b).idx = c.advance.idx := by
  simp [Context.absorbByte]

@[simp] theorem Context.afterSqueeze_rate (c : Context) : c.afterSqueeze.rate = c.rate := by
  simp [Context.afterSqueeze]
@[simp] theorem Context.afterSqueeze_fout (c : Context) : c.afterSqueeze.fout = c.fout := by
  simp [Context.afterSqueeze]
@[simp] theorem Context.afterSqueeze_dsfx (c : Context) : c.afterSqueeze.dsfx = c.dsfx := by
  simp [Context.afterSqueeze]
theorem Context.afterSqueeze_idx (c : Context) : c.afterSqueeze.idx = c.advance.idx := by
  simp [Context.afterSqueeze]

/-- One more byte absorbed keeps the cursor in the rate region (rule R18). -/
theorem Context.absorbByte_inRange (b : Byte) (c : Context) (h : c.inRange = true) : (c.absorbByte b).inRange = true := by
  have h' := c.inRange_iff.1 h
  rw [Context.inRange_iff, Context.absorbByte_idx, Context.advance_idx_toNat c h, Context.absorbByte_rate]
  exact ⟨Nat.mod_lt _ (by omega), h'.2⟩

/-- One more byte squeezed keeps the cursor in the rate region (rule R18). -/
theorem Context.afterSqueeze_inRange (c : Context) (h : c.inRange = true) : c.afterSqueeze.inRange = true := by
  have h' := c.inRange_iff.1 h
  rw [Context.inRange_iff, Context.afterSqueeze_idx, Context.advance_idx_toNat c h, Context.afterSqueeze_rate]
  exact ⟨Nat.mod_lt _ (by omega), h'.2⟩

/-! ### Sequences of bytes -/

@[simp] theorem Context.absorbBytes_nil (c : Context) : c.absorbBytes [] = c := rfl
@[simp] theorem Context.absorbBytes_cons (b : Byte) (bs : List Byte) (c : Context) :
    c.absorbBytes (b :: bs) = (c.absorbByte b).absorbBytes bs := rfl

/-- AbsorbByte keeps no memory of where a sequence was cut. -/
theorem Context.absorbBytes_append (bs cs : List Byte) (c : Context) :
    c.absorbBytes (bs ++ cs) = (c.absorbBytes bs).absorbBytes cs := by
  induction bs generalizing c with
  | nil => rfl
  | cons b bs ih => exact ih (c.absorbByte b)

@[simp] theorem Context.absorbBytes_rate (bs : List Byte) (c : Context) : (c.absorbBytes bs).rate = c.rate := by
  induction bs generalizing c with
  | nil => rfl
  | cons b bs ih => simp [ih]
@[simp] theorem Context.absorbBytes_fout (bs : List Byte) (c : Context) : (c.absorbBytes bs).fout = c.fout := by
  induction bs generalizing c with
  | nil => rfl
  | cons b bs ih => simp [ih]
@[simp] theorem Context.absorbBytes_dsfx (bs : List Byte) (c : Context) : (c.absorbBytes bs).dsfx = c.dsfx := by
  induction bs generalizing c with
  | nil => rfl
  | cons b bs ih => simp [ih]

theorem Context.absorbBytes_inRange (bs : List Byte) (c : Context) (h : c.inRange = true) :
    (c.absorbBytes bs).inRange = true := by
  induction bs generalizing c with
  | nil => exact h
  | cons b bs ih => exact ih _ (c.absorbByte_inRange b h)

@[simp] theorem Context.squeeze_zero (c : Context) : c.squeeze 0 = ([], c) := rfl
@[simp] theorem Context.squeeze_succ (n : Nat) (c : Context) :
    c.squeeze (n + 1) = (c.outByte :: (c.afterSqueeze.squeeze n).1, (c.afterSqueeze.squeeze n).2) := rfl

theorem Context.squeeze_length (n : Nat) (c : Context) : (c.squeeze n).1.length = n := by
  induction n generalizing c with
  | zero => rfl
  | succ n ih => simp [ih]

@[simp] theorem Context.squeeze_rate (n : Nat) (c : Context) : (c.squeeze n).2.rate = c.rate := by
  induction n generalizing c with
  | zero => rfl
  | succ n ih => simp [ih]
@[simp] theorem Context.squeeze_fout (n : Nat) (c : Context) : (c.squeeze n).2.fout = c.fout := by
  induction n generalizing c with
  | zero => rfl
  | succ n ih => simp [ih]
@[simp] theorem Context.squeeze_dsfx (n : Nat) (c : Context) : (c.squeeze n).2.dsfx = c.dsfx := by
  induction n generalizing c with
  | zero => rfl
  | succ n ih => simp [ih]

@[simp] theorem Context.pad_rate (c : Context) : c.pad.rate = c.rate := rfl
@[simp] theorem Context.pad_fout (c : Context) : c.pad.fout = c.fout := rfl
@[simp] theorem Context.pad_dsfx (c : Context) : c.pad.dsfx = c.dsfx := rfl
@[simp] theorem Context.pad_idx (c : Context) : c.pad.idx = c.idx := rfl
@[simp] theorem Context.closeAbsorption_lanes (c : Context) : c.closeAbsorption.lanes = keccakF c.pad.lanes := rfl
@[simp] theorem Context.closeAbsorption_rate (c : Context) : c.closeAbsorption.rate = c.rate := rfl
@[simp] theorem Context.closeAbsorption_fout (c : Context) : c.closeAbsorption.fout = c.fout := rfl
@[simp] theorem Context.closeAbsorption_dsfx (c : Context) : c.closeAbsorption.dsfx = c.dsfx := rfl
@[simp] theorem Context.closeAbsorption_idx (c : Context) : c.closeAbsorption.idx = 0 := rfl

theorem Context.closeAbsorption_inRange (c : Context) (h : c.inRange = true) : c.closeAbsorption.inRange = true := by
  have h' := c.inRange_iff.1 h
  rw [Context.inRange_iff]
  exact ⟨by simp; omega, h'.2⟩

/-! ### Answering a command -/

/-- The next state a rejection gives (rule R72). -/
theorem reject_next {e : Rsp} {s t : State} : reject e s = .next t ↔ t = s.respond e := by
  simp [reject, eq_comm]

/-- The next state an accepted command gives. -/
theorem accept_next {c : Context} {p : Phase} {bytes : List Byte} {s t : State} :
    accept c p bytes s = .next t ↔
      t = { s with phase := p, ctx := c, out := s.out ++ bytes, rsps := s.rsps ++ [.ok] } := by
  simp [accept, eq_comm]

theorem withCursor_next {s t : State} {k : Host.Outcome State Fault Refusal} :
    withCursor s k = .next t ↔ s.ctx.inRange = true ∧ k = .next t := by
  unfold withCursor; split <;> simp_all

/-- Everything `execStart` can do when it answers a next state. -/
theorem execStart_next {v : BitVec 3} {s t : State} (h : execStart v s = .next t) :
    (s.phase ≠ .uninitialized ∧ t = s.respond .protocolViolation) ∨
    (s.phase = .uninitialized ∧ variantLookup v = none ∧ t = s.respond .invalidVariant) ∨
    (s.phase = .uninitialized ∧ ∃ d, variantLookup v = some d ∧
      t = { s with phase := .started, ctx := Context.bind d, out := s.out ++ [], rsps := s.rsps ++ [.ok] }) := by
  unfold execStart at h
  split at h
  · rename_i hp
    split at h
    · rename_i d hd; exact .inr (.inr ⟨hp, d, hd, accept_next.1 h⟩)
    · rename_i hn; exact .inr (.inl ⟨hp, hn, reject_next.1 h⟩)
  · rename_i hp; exact .inl ⟨hp, reject_next.1 h⟩

/-- Everything `execUpdate0` can do when it answers a next state. -/
theorem execUpdate0_next {s t : State} (h : execUpdate0 s = .next t) :
    (s.phase.holdsContext = false ∧ t = s.respond .protocolViolation) ∨
    (s.phase.holdsContext = true ∧ t = { s with out := s.out ++ [], rsps := s.rsps ++ [.ok] }) := by
  unfold execUpdate0 at h
  split at h
  · rename_i hp; exact .inr ⟨hp, accept_next.1 h⟩
  · rename_i hp; exact .inl ⟨by simpa using hp, reject_next.1 h⟩

/-- Everything UPDATE.1, UPDATE.2 and UPDATE.3 can do when they answer a next state. -/
theorem absorbCommand_next {bs : List Byte} {s t : State} (h : absorbCommand bs s = .next t) :
    (s.phase.holdsContext = false ∧ t = s.respond .protocolViolation) ∨
    (s.phase.holdsContext = true ∧ s.ctx.inRange = true ∧
      t = { s with phase := .absorbing, ctx := s.ctx.absorbBytes bs, out := s.out ++ [], rsps := s.rsps ++ [.ok] }) := by
  unfold absorbCommand at h
  split at h
  · rename_i hp
    have h' := withCursor_next.1 h
    exact .inr ⟨hp, h'.1, accept_next.1 h'.2⟩
  · rename_i hp; exact .inl ⟨by simpa using hp, reject_next.1 h⟩

/-- Everything FINISH can do when it answers a next state. -/
theorem finishWith_next {cfg : Config} {n : BitVec 22} {s t : State} (h : finishWith cfg n s = .next t) :
    (s.phase.holdsContext = false ∧ t = s.respond .protocolViolation) ∨
    (s.phase.holdsContext = true ∧ outputLength cfg s.ctx.fout n = none ∧ t = s.respond .invalidOutputLength) ∨
    (s.phase.holdsContext = true ∧ s.ctx.inRange = true ∧ ∃ len, outputLength cfg s.ctx.fout n = some len ∧
      t = { s with phase := .finished, ctx := (s.ctx.closeAbsorption.squeeze len).2,
                   out := s.out ++ (s.ctx.closeAbsorption.squeeze len).1, rsps := s.rsps ++ [.ok] }) := by
  unfold finishWith at h
  split at h
  · rename_i hp
    split at h
    · rename_i len hl
      have h' := withCursor_next.1 h
      exact .inr (.inr ⟨hp, h'.1, len, hl, accept_next.1 h'.2⟩)
    · rename_i hn; exact .inr (.inl ⟨hp, hn, reject_next.1 h⟩)
  · rename_i hp; exact .inl ⟨by simpa using hp, reject_next.1 h⟩

/-- Everything one step can do when it answers a next state. -/
theorem step_next {s t : State} (h : step s = .next t) :
    (s.nextAction = none ∧ t = s) ∨
    (s.nextAction = some .reset ∧ t = s.present.hostReset) ∨
    (∃ w, s.nextAction = some (.word w) ∧ decode w = .illegal ∧ t = s.present.respond .illegalCommand) ∨
    (∃ w i, s.nextAction = some (.word w) ∧ decode w = .command i ∧ exec i s.present = .next t) := by
  unfold step at h
  split at h
  · rename_i hn; exact .inl ⟨hn, by simpa [eq_comm] using h⟩
  · rename_i hr; exact .inr (.inl ⟨hr, by simpa [eq_comm] using h⟩)
  · rename_i w hw
    split at h
    · rename_i i hi; exact .inr (.inr (.inr ⟨w, i, hw, hi, h⟩))
    · rename_i hi; exact .inr (.inr (.inl ⟨w, hw, hi, reject_next.1 h⟩))

/-! ### Runs -/

@[simp] theorem core_run_zero (s : State) : core.run 0 s = .next s := by simp only [Host.Core.run]

/-- A run starts with its first step. -/
theorem core_run_next {n : Nat} {s t : State} (h : step s = .next t) : core.run (n + 1) s = core.run n t := by
  have h' : core.step s = .next t := h
  simp only [Host.Core.run, h']

theorem core_run_fault {n : Nat} {s : State} {f : Fault} (h : step s = .fault f) : core.run (n + 1) s = .fault f := by
  have h' : core.step s = .fault f := h
  simp only [Host.Core.run, h']

theorem core_run_refused {n : Nat} {s : State} {r : Refusal} (h : step s = .refused r) : core.run (n + 1) s = .refused r := by
  have h' : core.step s = .refused r := h
  simp only [Host.Core.run, h']

end Sys2Proof.Machine
end

