-- ==== Sys2Proof/Laws/PerInstr.lean ====
section
/-!
SUPPORT. One statement per command: the word the encoder gives it is well formed by the reasons of 30_encoding.md rule
R37 (WellFormed.lean), which the encoder was not written from.
-/

namespace Sys2Proof.Laws.EncodeWellFormed

/-- The encoder's word is a command, its reserved bits are zero, and its unused byte fields are zero. -/
def Statement (i : Instr) : Prop := wordWellFormed (encode i) = true

/-- A field of an encoded word, from the word's number. -/
theorem field_eq (lo len c : Nat) {w : Word32} (h : w.toNat / 2 ^ lo % 2 ^ len = c % 2 ^ len) :
    w.extractLsb' lo len = BitVec.ofNat len c := by
  rw [← BitVec.toNat_inj, field_toNat, BitVec.toNat_ofNat, h]

theorem start (v : BitVec 3) : Statement (.start v) := by
  have hv := v.isLt
  have hw := encode_start_toNat v
  have hop : opField (encode (.start v)) = 1 := field_eq 28 4 1 (by omega)
  have hz : (encode (.start v)).extractLsb' 3 25 = 0 := field_eq 3 25 0 (by omega)
  simp [Statement, wordWellFormed, opIsCommand, reservedBitsZero, unusedBytesZero, hop, hz]

theorem update0 : Statement .update0 := by unfold Statement; decide

theorem update1 (b0 : BitVec 8) : Statement (.update1 b0) := by
  have h0 := b0.isLt
  have hw := encode_update1_toNat b0
  have hop : opField (encode (.update1 b0)) = 2 := field_eq 28 4 2 (by omega)
  have hc : cntField (encode (.update1 b0)) = 1 := field_eq 26 2 1 (by omega)
  have hz : (encode (.update1 b0)).extractLsb' 24 2 = 0 := field_eq 24 2 0 (by omega)
  have h1 : (encode (.update1 b0)).extractLsb' 8 8 = 0 := field_eq 8 8 0 (by omega)
  have h2 : (encode (.update1 b0)).extractLsb' 16 8 = 0 := field_eq 16 8 0 (by omega)
  simp [Statement, wordWellFormed, opIsCommand, reservedBitsZero, unusedBytesZero, hop, hc, hz, h1, h2]

theorem update2 (b0 b1 : BitVec 8) : Statement (.update2 b0 b1) := by
  have h0 := b0.isLt
  have h1 := b1.isLt
  have hw := encode_update2_toNat b0 b1
  have hop : opField (encode (.update2 b0 b1)) = 2 := field_eq 28 4 2 (by omega)
  have hc : cntField (encode (.update2 b0 b1)) = 2 := field_eq 26 2 2 (by omega)
  have hz : (encode (.update2 b0 b1)).extractLsb' 24 2 = 0 := field_eq 24 2 0 (by omega)
  have h2 : (encode (.update2 b0 b1)).extractLsb' 16 8 = 0 := field_eq 16 8 0 (by omega)
  simp [Statement, wordWellFormed, opIsCommand, reservedBitsZero, unusedBytesZero, hop, hc, hz, h2]

theorem update3 (b0 b1 b2 : BitVec 8) : Statement (.update3 b0 b1 b2) := by
  have h0 := b0.isLt
  have h1 := b1.isLt
  have h2 := b2.isLt
  have hw := encode_update3_toNat b0 b1 b2
  have hop : opField (encode (.update3 b0 b1 b2)) = 2 := field_eq 28 4 2 (by omega)
  have hc : cntField (encode (.update3 b0 b1 b2)) = 3 := field_eq 26 2 3 (by omega)
  have hz : (encode (.update3 b0 b1 b2)).extractLsb' 24 2 = 0 := field_eq 24 2 0 (by omega)
  simp [Statement, wordWellFormed, opIsCommand, reservedBitsZero, unusedBytesZero, hop, hc, hz]

theorem finish (n : BitVec 22) : Statement (.finish n) := by
  have hn := n.isLt
  have hw := encode_finish_toNat n
  have hop : opField (encode (.finish n)) = 3 := field_eq 28 4 3 (by omega)
  have hz : (encode (.finish n)).extractLsb' 22 6 = 0 := field_eq 22 6 0 (by omega)
  simp [Statement, wordWellFormed, opIsCommand, reservedBitsZero, unusedBytesZero, hop, hz]

end Sys2Proof.Laws.EncodeWellFormed
end

