-- ==== Sys2Proof/Tests/Slice0.lean ====
section
/-!
SUPPORT. The model's own tests. Every expected value is from the spec's tables and worked examples (the section is named
beside it); the witnesses at the end show, for each statement that has hypotheses, that they can be met together.
-/

namespace Sys2Proof.Tests

open Sys2Proof.Machine

/-! ### WellFormed: each check refuses a word (rule R37; 95_test_vectors.md section 3.1) -/

theorem test_op_check_refuses :
    opIsCommand 0x00000000 = false ∧ opIsCommand 0x40000000 = false ∧ opIsCommand 0xF0000000 = false ∧
    wordWellFormed 0x00000000 = false ∧ wordWellFormed 0x40000000 = false ∧ wordWellFormed 0xFFFFFFFF = false := by decide

theorem test_reserved_bits_check_refuses :
    reservedBitsZero 0x10000008 = false ∧ reservedBitsZero 0x11000003 = false ∧ reservedBitsZero 0x21000000 = false ∧
    reservedBitsZero 0x22000000 = false ∧ reservedBitsZero 0x2D000000 = false ∧ reservedBitsZero 0x30400000 = false ∧
    wordWellFormed 0x1000000E = false ∧ wordWellFormed 0x21000000 = false ∧ wordWellFormed 0x30400000 = false := by decide

theorem test_unused_bytes_check_refuses :
    unusedBytesZero 0x20000001 = false ∧ unusedBytesZero 0x24006100 = false ∧ unusedBytesZero 0x28FF0000 = false ∧
    unusedBytesZero 0x28010000 = false ∧ wordWellFormed 0x20000001 = false ∧ wordWellFormed 0x24006100 = false := by decide

theorem test_good_words_are_well_formed :
    wordWellFormed 0x10000007 = true ∧ wordWellFormed 0x20000000 = true ∧ wordWellFormed 0x240000FF = true ∧
    wordWellFormed 0x28006261 = true ∧ wordWellFormed 0x2CFFFFFF = true ∧ wordWellFormed 0x303FFFFF = true := by decide

/-! ### Decoding, from the patterns of 30_encoding.md section 5 written out bit by bit -/

theorem test_decode_start : decode 0b00010000000000000000000000000101 = .command (.start 5) := by decide
theorem test_decode_update0 : decode 0b00100000000000000000000000000000 = .command .update0 := by decide
theorem test_decode_update1 : decode 0b00100100000000000000000001100001 = .command (.update1 0x61) := by decide
theorem test_decode_update2 : decode 0b00101000000000000110001001100001 = .command (.update2 0x61 0x62) := by decide
theorem test_decode_update3 : decode 0b00101100011000110110001001100001 = .command (.update3 0x61 0x62 0x63) := by decide
theorem test_decode_finish : decode 0b00110000001000000000000000000001 = .command (.finish 2097153) := by decide

/-- 95_test_vectors.md section 3.1: ILLEGAL rows for a reserved bit or an unused byte. -/
theorem test_decode_illegal_reserved :
    decode 0x10000008 = .illegal ∧ decode 0x11000003 = .illegal ∧ decode 0x20000001 = .illegal ∧ decode 0x24006100 = .illegal ∧
    decode 0x28FF0000 = .illegal ∧ decode 0x28010000 = .illegal := by decide

/-- 95_test_vectors.md section 3.1: the other ILLEGAL rows. -/
theorem test_decode_illegal :
    decode 0x2D000000 = .illegal ∧ decode 0x22000000 = .illegal ∧ decode 0x30400000 = .illegal ∧ decode 0x00000000 = .illegal ∧
    decode 0x40000000 = .illegal ∧ decode 0xF0000000 = .illegal ∧ decode 0xFFFFFFFF = .illegal := by decide

/-- The examples of encoding, 30_encoding.md section 5. -/
theorem test_encode :
    encode (.start 3) = 0x10000003 ∧ encode .update0 = 0x20000000 ∧ encode (.update1 0x61) = 0x24000061 ∧
    encode (.update2 0x61 0x62) = 0x28006261 ∧ encode (.update3 0x61 0x62 0x63) = 0x2C636261 ∧
    encode (.finish 2097152) = 0x30200000 := by decide

theorem test_decodeTableWord :
    decodeTableWord 32 0x10000003 = some (.start 3) ∧ decodeTableWord 32 0x2C636261 = some (.update3 0x61 0x62 0x63) ∧
    decodeTableWord 32 0x30000020 = some (.finish 32) ∧ decodeTableWord 32 0x24006100 = none := by decide

/-! ### State bytes (95_test_vectors.md section 2.1) -/

/-- A state given by its nonzero lanes. -/
def lanesOf (l : List (Nat × Lane)) : Lanes := l.foldl (fun a p => a.setIfInBounds p.1 p.2) Lanes.zero

/-- The state `A[i] = i + 1`. -/
def countingLanes : Lanes := Vector.ofFn fun i => BitVec.ofNat 64 (i.val + 1)

theorem test_stateByteRead :
    [15, 16, 17, 19, 22, 23, 24].map (stateByteRead (lanesOf [(2, 0x8877665544332211)])) =
      [0x00, 0x11, 0x22, 0x44, 0x77, 0x88, 0x00] := by decide

theorem test_stateByteXor :
    let a1 := stateByteXor Lanes.zero 0 0x06
    let a2 := stateByteXor a1 7 0x80
    let a4 := stateByteXor (stateByteXor a2 0 0x06) 135 0x80
    let a8 := stateByteXor (stateByteXor (stateByteXor (stateByteXor a4 135 0x06) 71 0xFF) 167 0x9F) 199 0x01
    a1 = lanesOf [(0, 0x06)] ∧ a2 = lanesOf [(0, 0x8000000000000006)] ∧
    a8 = lanesOf [(0, 0x8000000000000000), (16, 0x8600000000000000), (8, 0xFF00000000000000), (20, 0x9F00000000000000),
      (24, 0x0100000000000000)] := by decide

/-! ### The step mappings (95_test_vectors.md sections 2.2 to 2.9) -/

theorem test_theta_bit63 : theta (lanesOf [(0, 0x8000000000000000)]) =
    lanesOf [(0, 0x8000000000000000), (1, 0x8000000000000000), (4, 1), (6, 0x8000000000000000), (9, 1),
      (11, 0x8000000000000000), (14, 1), (16, 0x8000000000000000), (19, 1), (21, 0x8000000000000000), (24, 1)] := by decide

theorem test_theta_counting : theta countingLanes =
    #v[0x10, 0x0D, 0x1D, 0x1D, 0x1F, 0x17, 0x08, 0x16, 0x10, 0x10, 0x1A, 0x03, 0x13, 0x17, 0x15, 0x01, 0x1E, 0x0C, 0x0A, 0x0E,
      0x04, 0x19, 0x09, 0x01, 0x03] := by decide

theorem test_rho : rho (Vector.replicate 25 0x8000000000000001) =
    #v[0x8000000000000001, 0x0000000000000003, 0x6000000000000000, 0x0000000018000000, 0x000000000C000000,
      0x0000001800000000, 0x0000180000000000, 0x0000000000000060, 0x00C0000000000000, 0x0000000000180000,
      0x000000000000000C, 0x0000000000000600, 0x00000C0000000000, 0x0000000003000000, 0x000000C000000000,
      0x0000030000000000, 0x0000300000000000, 0x000000000000C000, 0x0000000000300000, 0x0000000000000180,
      0x0000000000060000, 0x0000000000000006, 0x3000000000000000, 0x0180000000000000, 0x0000000000006000] := by decide

theorem test_pi : pi countingLanes =
    #v[1, 7, 13, 19, 25, 4, 10, 11, 17, 23, 2, 8, 14, 20, 21, 5, 6, 12, 18, 24, 3, 9, 15, 16, 22] := by decide

theorem test_rhoPiWalk : rhoPiWalk countingLanes =
    #v[0x0000000000000001, 0x0000700000000000, 0x0000680000000000, 0x0000000002600000, 0x0000000000064000,
      0x0000000040000000, 0x0000000000A00000, 0x0000000000000058, 0x0002200000000000, 0xE000000000000002,
      0x0000000000000004, 0x0000000000000200, 0x000000001C000000, 0x0000000000001400, 0x0000000000540000,
      0x0000000028000000, 0x0000006000000000, 0x0000000000003000, 0x0000000000090000, 0x1800000000000000,
      0xC000000000000000, 0x0480000000000000, 0x0000078000000000, 0x0000200000000000, 0x0000000000000058] := by decide

theorem test_chi_counting : chi countingLanes =
    #v[0x00, 0x06, 0x02, 0x04, 0x07, 0x0E, 0x06, 0x0A, 0x0D, 0x0B, 0x0A, 0x0E, 0x0C, 0x0E, 0x0B, 0x12, 0x10, 0x16, 0x13, 0x15,
      0x14, 0x1E, 0x16, 0x1C, 0x1B] := by decide

theorem test_iota :
    iota Lanes.zero 23 = lanesOf [(0, 0x8000000080008008)] ∧
    iota (lanesOf [(0, 0x800000000000808A), (1, 5)]) 2 = lanesOf [(1, 5)] := by decide

theorem test_keccakRound : keccakRound (keccakRound Lanes.zero 0) 1 =
    lanesOf [(0, 0x0000000000008083), (1, 0x0000100000000000), (2, 0x0000000000008000), (3, 0x0000000000000001),
      (4, 0x0000100000008000), (6, 0x0000200000200000), (8, 0x0000200000000000), (9, 0x0000000000200000),
      (10, 0x0000000000000002), (11, 0x0000000000000200), (13, 0x0000000000000202), (15, 0x0000000010000400),
      (17, 0x0000000000000400), (18, 0x0000000010000000), (20, 0x0000010000000000), (22, 0x0000010000000004),
      (24, 0x0000000000000004)] := by decide

/-! ### The commands -/

/-- The rows of `VROM` the tests use (rule R11). -/
def shake128 : Descriptor := ⟨1344, 0, 0x1F⟩
/-- See `shake128`. -/
def sha3_256 : Descriptor := ⟨1088, 256, 0x06⟩
/-- See `shake128`. -/
def sha3_512 : Descriptor := ⟨576, 512, 0x06⟩

/-- An instance in phase `p` with the variant `d` bound, its cursor at `k`, all lanes zero. -/
def held (p : Phase) (d : Descriptor) (k : BitVec 8) : State :=
  { State.reset with phase := p, ctx := { Context.bind d with idx := k } }

/-- What a test looks at of the next state. -/
def seen (o : Host.Outcome State Fault Refusal) : Option (Phase × BitVec 8 × List Rsp × List Byte) :=
  match o with
  | .next t => some (t.phase, t.ctx.idx, t.rsps, t.out)
  | .fault _ => none
  | .refused _ => none

/-- The context of the next state. -/
def seenContext (o : Host.Outcome State Fault Refusal) : Option Context :=
  match o with
  | .next t => some t.ctx
  | .fault _ => none
  | .refused _ => none

/-- Rule R51, example: `START SHA3-256` from reset, through the fetch of the word. -/
theorem test_start_sha3_256 :
    seen (step (State.reset.withFetchWord 32 0x10000003)) = some (.started, 0, [.ok], []) ∧
    seenContext (step (State.reset.withFetchWord 32 0x10000003)) = some ⟨Lanes.zero, 136, 32, 0x06, 0⟩ := by decide

/-- Rule R51: id 6 in phase 0 is InvalidVariant, in phase 3 ProtocolViolation. -/
theorem test_start_rejected :
    seen (exec (.start 6) State.reset) = some (.uninitialized, 0, [.invalidVariant], []) ∧
    seen (exec (.start 6) (held .finished sha3_256 32)) = some (.finished, 32, [.protocolViolation], []) := by decide

/-- Rule R56, example: `PHASE` stays 1. -/
theorem test_update0 :
    seen (exec .update0 (held .started sha3_256 0)) = some (.started, 0, [.ok], []) ∧
    seen (exec .update0 (held .finished sha3_256 32)) = some (.finished, 32, [.protocolViolation], []) := by decide

/-- Rule R57, example. -/
theorem test_update1 :
    seen (exec (.update1 0x61) (held .started sha3_256 0)) = some (.absorbing, 1, [.ok], []) ∧
    seenContext (exec (.update1 0x61) (held .started sha3_256 0)) = some ⟨lanesOf [(0, 0x61)], 136, 32, 0x06, 1⟩ := by decide

/-- Rule R55, example: `RATE = 72`, `IDX = 71`: 0xAA into bits 63..56 of `A[8]`, then KeccakF. -/
theorem test_update1_wraps :
    seenContext (exec (.update1 0xAA) (held .absorbing sha3_512 71)) =
      some ⟨keccakF (lanesOf [(8, 0xAA00000000000000)]), 72, 64, 0x06, 0⟩ := rfl

/-- Rule R58, example. -/
theorem test_update2 :
    seen (exec (.update2 0x61 0x62) (held .started sha3_256 0)) = some (.absorbing, 2, [.ok], []) ∧
    seenContext (exec (.update2 0x61 0x62) (held .started sha3_256 0)) = some ⟨lanesOf [(0, 0x6261)], 136, 32, 0x06, 2⟩ := by decide

/-- Rule R58, corner: at `RATE - 1` the second byte goes to byte 0 of the permuted state. -/
theorem test_update2_wraps :
    seenContext (exec (.update2 0xAA 0xBB) (held .absorbing sha3_512 71)) =
      some ⟨stateByteXor (keccakF (lanesOf [(8, 0xAA00000000000000)])) 0 0xBB, 72, 64, 0x06, 1⟩ := rfl

/-- Rule R59, example. -/
theorem test_update3 :
    seenContext (exec (.update3 0x61 0x62 0x63) (held .started sha3_256 0)) =
      some ⟨lanesOf [(0, 0x636261)], 136, 32, 0x06, 3⟩ := by decide

/-- Rule R59, corner: `RATE = 72`, `IDX = 71`: `IDX` ends at 2. -/
theorem test_update3_wraps :
    seenContext (exec (.update3 0xAA 0xBB 0xCC) (held .absorbing sha3_512 71)) =
      some ⟨stateByteXor (stateByteXor (keccakF (lanesOf [(8, 0xAA00000000000000)])) 0 0xBB) 1 0xCC, 72, 64, 0x06, 2⟩ := rfl

/-- V1: SHA3-256 of the empty message, `FINISH 0` (rule R62, example). -/
theorem test_finish_sha3_256_empty :
    seen (exec (.finish 0) (held .started sha3_256 0)) = some (.finished, 32, [.ok],
      [0xa7, 0xff, 0xc6, 0xf8, 0xbf, 0x1e, 0xd7, 0x66, 0x51, 0xc1, 0x47, 0x56, 0xa0, 0x61, 0xd6, 0x62,
       0xf5, 0x80, 0xff, 0x4d, 0xe4, 0x3b, 0x49, 0xfa, 0x82, 0xd8, 0x0a, 0x4b, 0x80, 0xf8, 0x43, 0x4a]) := by
  decide +kernel

/-- 95_test_vectors.md section 3.6: the first length above the bound on an XOF; section 3.9: FINISH in phase 0. -/
theorem test_finish_rejected :
    seen (exec (.finish 2097153) (held .absorbing shake128 5)) = some (.absorbing, 5, [.invalidOutputLength], []) ∧
    seen (exec (.finish 32) State.reset) = some (.uninitialized, 0, [.protocolViolation], []) := ⟨rfl, rfl⟩

/-- 95_test_vectors.md section 3.9: an ILLEGAL word in phase 3 is IllegalCommand, then `START 6` ProtocolViolation. -/
theorem test_illegal_word :
    seen (step { held .finished sha3_256 32 with pending := [.word 0x1000000E] }) =
      some (.finished, 32, [.illegalCommand], []) ∧
    seen (step { held .finished sha3_256 32 with pending := [.word 0x10000006] }) =
      some (.finished, 32, [.protocolViolation], []) := by decide

/-- 95_test_vectors.md section 3.9: two of the rows without a permutation, as runs. -/
theorem test_rejection_runs :
    runResult [.word 0x10000006, .word 0x10000003] = some ⟨[.invalidVariant, .ok], [], .started⟩ ∧
    runResult [.word 0x10000003, .word 0x2C636261, .reset, .word 0x30000000] =
      some ⟨[.ok, .ok, .protocolViolation], [], .uninitialized⟩ := by decide

/-! ### The assembler (rules R38, R39) -/

/-- `UPDATE 0x61,98 ;x`: two byte values and a comment. -/
theorem test_parse_update :
    parseLine ['U', 'P', 'D', 'A', 'T', 'E', ' ', '0', 'x', '6', '1', ',', '9', '8', ' ', ';', 'x'] =
      some (some (.update [0x61, 0x62])) := by decide

/-- `START SHA3-256`, `FINISH 32` and `UPDATE "abc"`. -/
theorem test_parse_lines :
    parseLine ['S', 'T', 'A', 'R', 'T', ' ', 'S', 'H', 'A', '3', '-', '2', '5', '6'] = some (some (.start 3)) ∧
    parseLine ['F', 'I', 'N', 'I', 'S', 'H', ' ', '3', '2'] = some (some (.finish 32)) ∧
    parseLine ['U', 'P', 'D', 'A', 'T', 'E', ' ', '"', 'a', 'b', 'c', '"'] =
      some (some (.update [0x61, 0x62, 0x63])) := by decide

/-- Rule R39: the canonical split of four bytes, and of none. -/
theorem test_expand_update :
    (expandUpdate [0x61, 0x62, 0x63, 0x64]).map encode = [0x2C636261, 0x24000064] ∧
    (expandUpdate []).map encode = [0x20000000] := by decide

/-! ### Witnesses: the hypotheses of each statement can be met together, at boundary values where it has ranges -/

theorem test_witness_EncodeOfDecode : decode 0x303FFFFF = .command (.finish 4194303) := by decide

theorem test_witness_DecodeByTheOpcodeMap :
    (∃ r ∈ opcodeMap, (0x2CFFFFFF : Word32) &&& r.mask = r.pattern) ∧
    (∀ r ∈ opcodeMap, (0x24006100 : Word32) &&& r.mask ≠ r.pattern) := by decide

theorem test_witness_LaneOperations :
    (rotl64 0x8000000000000001 1 = 3 ∧ rotl64 0x8000000000000001 62 = 0x6000000000000000) ∧
    (63 ≤ 63 ∧ (rotl64 1 63).getLsbD ((0 + 63) % 64) = true ∧ (rotl64 0x8000000000000000 63).getLsbD ((63 + 63) % 64) = true) := by
  decide

theorem test_witness_StateBytes :
    (199 < 200 ∧ stateByteRead (lanesOf [(24, 0x0100000000000000)]) 199 = 1) ∧
    (0 < 200 ∧ (0 : Nat) ≠ 199 ∧ (24 : Nat) ≠ 0 / 8 ∧ stateByteRead (stateByteXor Lanes.zero 199 1) 0 = 0) := by decide

theorem test_witness_ThetaByColumns :
    (∃ parity diffusion : Fin 5 → Lane,
      (∀ c : Fin 5, parity c = countingLanes[c.val] ^^^ countingLanes[c.val + 5] ^^^ countingLanes[c.val + 10] ^^^
        countingLanes[c.val + 15] ^^^ countingLanes[c.val + 20]) ∧
      (∀ c : Fin 5, diffusion c = parity (c + 4) ^^^ rotl64 (parity (c + 1)) 1)) ∧
    (∀ c : Fin 5, (lanesOf [(3, 9), (13, 9)])[c.val] ^^^ (lanesOf [(3, 9), (13, 9)])[c.val + 5] ^^^
      (lanesOf [(3, 9), (13, 9)])[c.val + 10] ^^^ (lanesOf [(3, 9), (13, 9)])[c.val + 15] ^^^
      (lanesOf [(3, 9), (13, 9)])[c.val + 20] = 0) ∧ theta (lanesOf [(3, 9), (13, 9)]) = lanesOf [(3, 9), (13, 9)] :=
  ⟨⟨_, _, fun _ => rfl, fun _ => rfl⟩, by decide, by decide⟩

theorem test_witness_RomTablesByDefinition :
    roundConstants[(23 : Fin 24)].getLsbD (63 : Fin 64).val = true ∧ rotationOffsets[(24 : Fin 25)] = rotationOffsets[(24 : Fin 25)] ∧
    (1 : Fin 25) ≠ 0 := by decide

/-- Its one hypothesis is about a lane number; the cycle starts at lane 1. -/
theorem test_witness_RhoRotatesAndPiMoves :
    (24 : Fin 25) ≠ 0 ∧ (fun j : Fin 25 => laneDestinations[j])^[(23 : Fin 24).val] 1 = 6 := by decide

/-- The lanes and the temporary of the walk's loop, from the counting state. -/
def walkRun : Nat → Lanes × Lane
  | 0 => (countingLanes, countingLanes[1])
  | k + 1 =>
    if h : k < 24 then
      ((walkRun k).1.set walkLanes[k] (rotl64 (walkRun k).2 walkRotations[k]), (walkRun k).1[walkLanes[k]])
    else walkRun k

theorem test_witness_WalkIsRhoThenPi :
    (walkRun 0).1 = countingLanes ∧ (walkRun 0).2 = countingLanes[1] ∧
    ∀ k : Fin 24,
      (walkRun (k.val + 1)).1 = (walkRun k.val).1.set walkLanes[k] (rotl64 (walkRun k.val).2 walkRotations[k]) ∧
      (walkRun (k.val + 1)).2 = (walkRun k.val).1[walkLanes[k]] := by
  refine ⟨rfl, rfl, fun k => ?_⟩
  simp [walkRun, k.isLt]

theorem test_witness_ChiByRowsAndIota :
    (∀ x : Fin 5, (lanesOf [(0, 7)])[5 * (1 : Fin 5).val + x.val] = 0) ∧
    (∀ y : Fin 5, y ≠ 0 → (lanesOf [(0, 7)])[5 * (0 : Fin 5).val + y.val] = 0) ∧
    chi (lanesOf [(0, 7)]) = lanesOf [(0, 7), (3, 7)] := by decide

/-- The states between the rounds, from the all-zero state. -/
def roundStates : Nat → Lanes
  | 0 => Lanes.zero
  | k + 1 => if h : k < 24 then keccakRound (roundStates k) ⟨k, h⟩ else roundStates k

theorem test_witness_KeccakFIsTwentyFourRounds :
    roundStates 0 = Lanes.zero ∧ ∀ ir : Fin 24, roundStates (ir.val + 1) = keccakRound (roundStates ir.val) ir := by
  refine ⟨rfl, fun ir => ?_⟩
  simp [roundStates, ir.isLt]

theorem test_witness_VariantTable :
    variantLookup 0 = some shake128 ∧ variantLookup 3 = some sha3_256 ∧ variantLookup 5 = some sha3_512 := by decide

/-- The three kinds of step, and a bound context of either kind. -/
theorem test_witness_ParametersWrittenByStartOnly :
    (∃ t, step (State.loaded [.word 0x10000005]) = .next t ∧ t.ctx.rate ≠ State.reset.ctx.rate) ∧
    (∃ t, step (State.loaded [.reset]) = .next t) ∧
    (∃ t, step { held .started shake128 0 with pending := [.word 0x20000000] } = .next t) ∧
    ((held .started sha3_256 0).Inv ∧ (held .started sha3_256 0).phase ≠ .uninitialized) ∧
    ((held .absorbing shake128 167).Inv ∧ (held .absorbing shake128 167).phase ≠ .uninitialized) :=
  ⟨⟨_, rfl, by decide⟩, ⟨_, rfl⟩, ⟨_, rfl⟩, by decide, by decide⟩

theorem test_witness_StartBindsTheVariant :
    (0x10000007 : Word32) &&& 0xFFFFFFF8 = 0x10000000 ∧
    State.reset.phase = .uninitialized ∧ variantLookup 5 = some sha3_512 ∧ 6 ≤ (6 : BitVec 3).toNat ∧
    6 ≤ (7 : BitVec 3).toNat ∧ (held .started sha3_512 0).phase ≠ .uninitialized ∧
    (held .finished sha3_512 0).phase ≠ .uninitialized := by decide

/-- The first and the last id that START binds, and one that it rejects, which is a next state too. -/
theorem test_witness_StartCompletes :
    State.reset.phase = .uninitialized ∧ (0 : BitVec 3).toNat ≤ 5 ∧ (5 : BitVec 3).toNat ≤ 5 ∧
    seen (exec (.start 5) State.reset) = some (.started, 0, [.ok], []) ∧
    seen (exec (.start 7) State.reset) = some (.uninitialized, 0, [.invalidVariant], []) :=
  ⟨rfl, by decide, by decide, by decide, by decide⟩

theorem test_witness_VariantsDifferOnlyInParameters :
    ∃ t u v w : State, (0 : BitVec 3).toNat ≤ 5 ∧ (5 : BitVec 3).toNat ≤ 5 ∧
      exec (.start 0) State.reset = .next t ∧ exec (.start 5) State.reset = .next u ∧
      exec (.start 1) State.reset = .next v ∧ exec (.start 3) State.reset = .next w :=
  ⟨_, _, _, _, by decide, by decide, rfl, rfl, rfl, rfl⟩

/-- The precondition of the byte operations at both ends: well below `RATE`, at `RATE - 2` and at `RATE - 1`. -/
theorem test_witness_byte_operations :
    let c (k : BitVec 8) := (held .absorbing sha3_512 k).ctx
    (c 0).idx.toNat < (c 0).rate.toNat ∧ (c 0).rate.toNat ≤ 200 ∧ 72 ≤ (c 0).rate.toNat ∧ (c 0).idx = 0 ∧
    (c 70).idx.toNat + 1 < (c 70).rate.toNat ∧
    (c 71).idx.toNat < (c 71).rate.toNat ∧ (c 71).idx.toNat + 1 = (c 71).rate.toNat := by decide

theorem test_witness_AbsorbByteEffect :
    ((held .absorbing sha3_512 70).ctx.absorbByte 0xFF).idx = 71 ∧
    ((held .absorbing sha3_512 71).ctx.absorbByte 0xFF).idx = 0 := ⟨rfl, rfl⟩

theorem test_witness_UpdateZeroIsANoOp :
    (held .started shake128 0).phase = .started ∧ (held .absorbing shake128 167).phase = .absorbing ∧
    State.reset.phase = .uninitialized ∧ (held .finished shake128 0).phase = .finished := by decide

/-- The first and the last byte of the capacity region, with and without a wrap. -/
theorem test_witness_CapacityIsUntouchedByBytes :
    let c (k : BitVec 8) := (held .absorbing sha3_512 k).ctx
    ((c 70).idx.toNat < (c 70).rate.toNat ∧ (c 70).rate.toNat ≤ 200 ∧ (c 70).idx.toNat + 1 < (c 70).rate.toNat) ∧
    ((c 71).idx.toNat < (c 71).rate.toNat ∧ ¬ (c 71).idx.toNat + 1 < (c 71).rate.toNat) ∧
    (72 < 200 ∧ (c 70).rate.toNat ≤ 72) ∧ (199 < 200 ∧ (c 70).rate.toNat ≤ 199) := by decide

theorem test_witness_UpdateAbsorbsItsBytes :
    let s := held .absorbing sha3_512 71
    ((0x240000FF : Word32) &&& 0xFFFFFF00 = 0x24000000 ∧ (0x2800FFFF : Word32) &&& 0xFFFF0000 = 0x28000000 ∧
      (0x2CFFFFFF : Word32) &&& 0xFF000000 = 0x2C000000) ∧
    (s.phase = .started ∨ s.phase = .absorbing) ∧ s.ctx.idx.toNat < s.ctx.rate.toNat ∧ s.ctx.rate.toNat ≤ 200 ∧
    72 ≤ s.ctx.rate.toNat ∧ (held .finished sha3_512 0).phase = .finished := by decide

theorem test_witness_UpdateFrame :
    let s := held .absorbing sha3_512 68
    updateBytes (.update3 1 2 3) = some [1, 2, 3] ∧ (∃ t, exec (.update3 1 2 3) s = .next t) ∧
    s.phase = .absorbing ∧ s.ctx.idx.toNat + [1, 2, 3].length < s.ctx.rate.toNat ∧
    (67 < 200 ∧ 67 < s.ctx.idx.toNat) ∧ (71 < 200 ∧ s.ctx.idx.toNat + [1, 2, 3].length ≤ 71) ∧
    (∃ t, exec (.update1 1) State.reset = .next t) :=
  ⟨rfl, ⟨_, rfl⟩, rfl, by decide, by decide, by decide, ⟨_, rfl⟩⟩

/-- The source's own example, "AB" then "C" against "ABC" (95_test_vectors.md section 3.7). -/
theorem test_witness_ChunkIndependence :
    [Instr.update2 0x41 0x42, .update0, .update1 0x43].map updateBytes = [[0x41, 0x42], [], [0x43]].map some ∧
    [Instr.update3 0x41 0x42 0x43].map updateBytes = [[0x41, 0x42, 0x43]].map some ∧
    [[0x41, 0x42], [], [0x43]].flatten = ([[0x41, 0x42, 0x43]].flatten : List Byte) ∧
    [[0x41, 0x42, 0x43]].flatten ≠ ([] : List Byte) ∧
    (held .started sha3_256 0).phase = .started ∧ (held .started sha3_256 0).ctx.idx.toNat < 136 ∧
    (held .started sha3_256 0).ctx.rate.toNat = 136 := by decide

/-- `PermutationCount`, and the second clause of `ChunkIndependence`. -/
theorem test_witness_PermutationCount : shake128 ∈ vrom ∧ sha3_512 ∈ vrom ∧ sha3_512.fixedOutputBytes ≠ 0 := by decide

theorem test_witness_FinishPadsTheBlock :
    let c (k : BitVec 8) := (held .absorbing sha3_512 k).ctx
    ((c 0).idx.toNat < (c 0).rate.toNat ∧ (c 0).rate.toNat ≤ 200) ∧
    ((c 71).idx.toNat < (c 71).rate.toNat ∧ (c 71).idx.toNat + 1 = (c 71).rate.toNat) := by decide

theorem test_witness_SqueezeByteEffect :
    ((held .absorbing sha3_512 70).ctx.squeeze 1).2.idx = 71 ∧
    ((held .absorbing sha3_512 71).ctx.squeeze 1).2.idx = 0 := ⟨rfl, rfl⟩

theorem test_witness_OutputLengthRule :
    ((28 : BitVec 7) ≠ 0 ∧ outputLength sbcore1 28 5 = some 28) ∧
    (sbcore1.outlenMin ≤ (1 : BitVec 22).toNat ∧ (2097152 : BitVec 22).toNat ≤ sbcore1.outlenMax) ∧
    ((0 : BitVec 22).toNat < sbcore1.outlenMin ∧ sbcore1.outlenMax < (2097153 : BitVec 22).toNat ∧
      (held .absorbing shake128 5).phase = .absorbing ∧ (held .absorbing shake128 5).ctx.fout = 0) := by decide

theorem test_witness_FinishEmitsTheDigest :
    let s := held .absorbing sha3_512 71
    let x := held .started shake128 0
    (0x303FFFFF : Word32) &&& 0xFFC00000 = 0x30000000 ∧
    (s.phase = .absorbing ∧ s.ctx.idx.toNat < s.ctx.rate.toNat ∧ s.ctx.rate.toNat ≤ 200 ∧ s.ctx.fout ≠ 0 ∧
      64 = s.ctx.fout.toNat) ∧
    (x.phase = .started ∧ x.ctx.idx.toNat < x.ctx.rate.toNat ∧ x.ctx.rate.toNat ≤ 200 ∧ x.ctx.fout = 0 ∧
      1 ≤ (1 : BitVec 22).toNat ∧ (2097152 : BitVec 22).toNat ≤ 2097152) ∧
    ((0 : BitVec 22).toNat < 1 ∧ 2097152 < (2097153 : BitVec 22).toNat) ∧ State.reset.phase = .uninitialized := by decide

theorem test_witness_FinishAndStartFrame :
    (∃ t, exec (.finish 0) (held .started sha3_256 0) = .next t) ∧
    (∃ t, exec (.finish 0) (held .started shake128 0) = .next t ∧ t.phase ≠ .finished) ∧
    (∃ t, exec (.start 7) State.reset = .next t ∧ t.phase ≠ .started) :=
  ⟨⟨_, rfl⟩, ⟨_, rfl, by decide⟩, ⟨_, rfl, by decide⟩⟩

theorem test_witness_OutputIsExtendable :
    let s := held .started shake128 0
    s.phase = .started ∧ s.ctx.fout = 0 ∧ (1 : BitVec 22).toNat ≤ (2 : BitVec 22).toNat ∧
    (∃ t u v, exec (.finish 1) s = .next t ∧ exec (.finish 2) s = .next u ∧ t.phase = .finished ∧ u.phase = .finished ∧
      exec (.finish 5) t = .next v) ∧ 0 < (1 : BitVec 22).toNat :=
  ⟨rfl, rfl, by decide, ⟨_, _, _, rfl, rfl, rfl, rfl, rfl⟩, by decide⟩

theorem test_witness_FixedDigestIgnoresOutlen : (held .started sha3_256 0).ctx.fout ≠ 0 := by decide

theorem test_witness_RejectedFinishLeavesTheContext :
    let s := held .absorbing shake128 1
    s.phase = .absorbing ∧ s.ctx.fout = 0 ∧ (0 : BitVec 22).toNat < 1 ∧
    ∃ t u, exec (.finish 0) s = .next t ∧ exec (.finish 16) s = .next u :=
  ⟨rfl, rfl, by decide, _, _, rfl, rfl⟩

theorem test_witness_RejectionChangesNothing :
    (∃ t, exec .update0 State.reset = .next t ∧ t.rsps = [.protocolViolation]) ∧
    (∃ t, exec (.start 0) State.reset = .next t ∧ t.rsps = [.ok]) ∧
    ((State.loaded [.word 0]).pending = .word 0 :: [] ∧ ∃ t, step (State.loaded [.word 0]) = .next t ∧ t.rsps ≠ [.ok]) :=
  ⟨⟨_, rfl, rfl⟩, ⟨_, rfl, rfl⟩, rfl, _, rfl, by decide⟩

/-- Each of the three errors, at both ends of its range, and START after InvalidVariant. -/
theorem test_witness_EachErrorHasItsCause :
    let x := held .absorbing shake128 5
    (∃ t, exec (.finish 0) x = .next t ∧ t.rsps = [.invalidOutputLength]) ∧
    (∃ t, exec (.finish 2097153) x = .next t ∧ t.rsps = [.invalidOutputLength]) ∧
    (∃ t, exec (.start 6) State.reset = .next t ∧ t.rsps = State.reset.rsps ++ [.invalidVariant] ∧
      t.rsps ≠ State.reset.rsps ++ [.ok] ∧ variantLookup 0 = some shake128) ∧
    (∃ t, exec (.start 7) State.reset = .next t ∧ t.rsps = [.invalidVariant]) ∧
    (∃ t, exec (.start 7) x = .next t ∧ t.rsps = [.protocolViolation]) ∧
    (∃ t, exec (.finish 0) (held .finished shake128 5) = .next t ∧ t.rsps = [.protocolViolation]) :=
  ⟨⟨_, rfl, rfl⟩, ⟨_, rfl, rfl⟩, ⟨_, rfl, rfl, by decide, rfl⟩, ⟨_, rfl, rfl⟩, ⟨_, rfl, rfl⟩, ⟨_, rfl, rfl⟩⟩

theorem test_witness_IllegalWordIsRejected :
    (State.loaded [.word 0]).pending = .word 0 :: [] ∧ decode 0 = .illegal := by decide

theorem test_witness_CheckOrder :
    (decode 0x1000000E = .illegal ∧ ∃ t, step (State.loaded [.word 0x1000000E]) = .next t) ∧
    lifecycle (.start 6) .finished = none ∧ lifecycle (.finish 0) .finished = none ∧
    (lifecycle (.start 6) .uninitialized ≠ none ∧ ∃ t, exec (.start 6) State.reset = .next t) :=
  ⟨⟨by decide, _, rfl⟩, rfl, rfl, by decide, _, rfl⟩

theorem test_witness_LifecycleTable :
    (∃ t, exec (.update1 7) (held .started sha3_256 0) = .next t ∧ t.rsps = [.ok]) ∧
    (∃ t, exec (.finish 9) (held .absorbing sha3_256 0) = .next t ∧ t.rsps = [.ok] ∧
      t.out ≠ (held .absorbing sha3_256 0).out) ∧
    (∃ t, exec (.start 6) State.reset = .next t ∧ t.rsps ≠ [.ok]) ∧ lifecycle .update0 .uninitialized = none ∧
    (decode 0x20000001 = .illegal ∧ ∃ t, step (State.loaded [.word 0x20000001]) = .next t) ∧
    (∃ t, step { held .finished sha3_256 32 with pending := [.reset] } = .next t) :=
  ⟨⟨_, rfl, rfl⟩, ⟨_, rfl, rfl, List.cons_ne_nil _ _⟩, ⟨_, rfl, by decide⟩, rfl, ⟨by decide, _, rfl⟩, ⟨_, rfl⟩⟩

theorem test_witness_StartedAndAbsorbingAlike :
    (held .started shake128 0).phase = .started ∧ (∃ t, exec (.update1 1) (held .started shake128 0) = .next t) ∧
    exec (.update1 1) (held .started shake128 168) = .fault .cursorOutsideRate :=
  ⟨rfl, ⟨_, rfl⟩, rfl⟩

theorem test_witness_RejectionRepeats :
    (∃ t, exec (.start 6) State.reset = .next t ∧ Rsp.invalidVariant ≠ .ok ∧
      t.rsps = State.reset.rsps ++ [.invalidVariant]) ∧
    (∃ t, execAll [.finish 0, .start 7] State.reset = .next t ∧
      t.rsps = State.reset.rsps ++ [.protocolViolation, .invalidVariant] ∧
      Rsp.ok ∉ [Rsp.protocolViolation, Rsp.invalidVariant]) :=
  ⟨⟨_, rfl, by decide, rfl⟩, _, rfl, rfl, by decide⟩

theorem test_witness_ResetPulse :
    { held .absorbing sha3_256 3 with pending := [.reset, .word 0] }.pending = .reset :: [.word 0] ∧
    ∃ t, step { held .finished sha3_256 32 with pending := [.reset] } = .next t ∧ t.phase ≠ .finished ∧
      t.phase = .uninitialized :=
  ⟨rfl, _, rfl, by decide, rfl⟩

theorem test_witness_ResetContentsUnobservable :
    State.reset.phase = .uninitialized ∧ (held .started sha3_256 9).ctx ≠ State.reset.ctx := by decide

theorem test_witness_InvariantKeptByEveryStep :
    (State.loaded [.word 0x10000003]).Inv ∧ (∃ t, step (State.loaded [.word 0x10000003]) = .next t) ∧
    (held .started sha3_256 0).Inv ∧ (held .absorbing shake128 167).Inv :=
  ⟨by decide, ⟨_, rfl⟩, by decide, by decide⟩

theorem test_witness_StepRunsTheDecodedCommand :
    (State.loaded [.word 0x24000061]).pending = .word 0x24000061 :: [] ∧ decode 0x24000061 = .command (.update1 0x61) ∧
    decodeTableWord 32 0x24000061 = some (.update1 0x61) ∧ State.reset.pending = [] := by decide

theorem test_witness_EveryStepCompletes : (held .absorbing sha3_512 71).Inv ∧ State.reset.Inv :=
  ⟨by decide, by decide⟩

theorem test_witness_OneResponsePerWord :
    (∃ t, step (State.loaded [.word 0, .reset]) = .next t ∧ t.pending = [.reset]) ∧
    (∃ t, step (State.loaded [.reset]) = .next t) :=
  ⟨⟨_, rfl, rfl⟩, ⟨_, rfl⟩⟩

theorem test_witness_DigestIsTheSponge :
    variantLookup 0 = some shake128 ∧ outputLength sbcore1 shake128.fixedOutputBytes 16 = some 16 ∧
    (State.loaded (digestActions 0 16 [1, 2, 3, 4] ++ [.reset])).pending = digestActions 0 16 [1, 2, 3, 4] ++ [.reset] := by decide

/-- Four bytes: two words, the second with what is left. -/
theorem test_witness_LongUpdateExpansion :
    [0x61, 0x62, 0x63, 0x64] ≠ ([] : List Byte) ∧ 1 < ([0x61, 0x62, 0x63, 0x64].length + 2) / 3 ∧
    ((expandUpdate [0x61, 0x62, 0x63, 0x64])[1]?).bind updateBytes = some [0x64] := by decide

theorem test_witness_DigestHostCheck :
    ((1 : BitVec 3).toNat ≤ 1 ∧ (0 : BitVec 22).toNat < 1 ∧ 2097152 < (2097153 : BitVec 22).toNat) ∧
    (6 ≤ (6 : BitVec 3).toNat) ∧ (1 ≤ (2097152 : BitVec 22).toNat ∧ (2097152 : BitVec 22).toNat ≤ 2097152) ∧
    (2 ≤ (2 : BitVec 3).toNat ∧ (5 : BitVec 3).toNat ≤ 5) := by decide

theorem test_witness_MicroStepsRefineTheStep :
    (∃ t, step (State.loaded [.word 0x10000003, .reset]) = .next t) ∧ (∃ t, step State.reset = .next t) :=
  ⟨⟨_, rfl⟩, _, rfl⟩

theorem test_witness_StallingChangesNothing :
    let s := { held .absorbing shake128 3 with pending := [.word 0x30000002] }
    s.pending = [.word 0x30000002] ∧ ∃ t, step s = .next t :=
  ⟨rfl, _, rfl⟩

/-- A FINISH with one byte left to emit, and a command about to answer. -/
theorem test_witness_PortsOfTheBlock :
    (Micro.mk (held .absorbing shake128 0) .squeezing none 1).ports.out = some (0, true) ∧
    (Micro.mk (held .absorbing shake128 0) .squeezing none 2).ports.out = some (0, false) ∧
    (Micro.mk State.reset (.responding .ok) none 0).ports.rsp = some 0 ∧
    (∃ m, (Micro.mk State.reset (.responding .ok) none 0).tick true = .next m ∧ m.core.rsps ≠ State.reset.rsps) ∧
    (Micro.mk State.reset .padded (some 0) 0).activity ≠ .idle :=
  ⟨rfl, rfl, rfl, ⟨_, rfl, by decide⟩, by decide⟩

theorem test_witness_InstancesAreIndependent :
    (∃ c, chipRun [0, 1, 0] (chipReset 2) = .next c) ∧ (chipReset 2).cores[1]? = some State.reset :=
  ⟨⟨_, rfl⟩, rfl⟩

theorem test_witness_CursorOutsideRateStops :
    let s := held .absorbing sha3_512 72
    (s.phase = .started ∨ s.phase = .absorbing) ∧ s.ctx.rate.toNat ≤ s.ctx.idx.toNat ∧ s.ctx.fout ≠ 0 ∧
    1 ≤ (1 : BitVec 22).toNat ∧ (1 : BitVec 22).toNat ≤ 2097152 ∧
    (let u := { s with ctx := { s.ctx with rate := 201 } }; u.phase = .absorbing ∧ 200 < u.ctx.rate.toNat) := by decide

end Sys2Proof.Tests
end

/-!
PROOFS. The family 00_scope.md: the lane operations of rule R5, and what a rejected command leaves (rules R8, R72).
-/

namespace Sys2Proof.Machine

/-! ### Rotation of a lane (rule R5) -/

@[simp] theorem rotl64_zero (a : Lane) : rotl64 a 0 = a := by
  simp [rotl64, BitVec.rotateLeft_def, BitVec.ushiftRight_eq_zero]

/-- Bit `j` of a lane lands at `j + n`, or at `j + n - 64` when it leaves the lane at the top. -/
theorem getLsbD_rotl64 (a : Lane) {n j : Nat} (hn : n < 64) (hj : j < 64) :
    (rotl64 a n).getLsbD ((j + n) % 64) = a.getLsbD j := by
  rw [rotl64, BitVec.getLsbD_rotateLeft_of_le hn]
  rcases Nat.lt_or_ge (j + n) 64 with hstays | hwraps
  · have hpos : (j + n) % 64 = j + n := Nat.mod_eq_of_lt hstays
    simp [hpos, hstays]
  · have hpos : (j + n) % 64 = j + n - 64 := by omega
    have hlow : j + n - 64 < n := by omega
    have hback : 64 - n + (j + n - 64) = j := by omega
    simp [hpos, hlow, hback]

/-- A number shifted up by `n` and cut to 64 bits keeps its low `64 - n` bits. -/
theorem shifted_mod_two_pow_64 (x : Nat) {n : Nat} (hn : n ≤ 64) :
    x * 2 ^ n % 2 ^ 64 = 2 ^ n * (x % 2 ^ (64 - n)) := by
  have hpow : 2 ^ 64 = 2 ^ n * 2 ^ (64 - n) := by rw [← pow_add, Nat.add_sub_cancel' hn]
  rw [hpow, Nat.mul_comm x, Nat.mul_mod_mul_left]

/-- The bits that leave a lane at the top fit below the bits that stay. -/
theorem top_bits_lt (a : Lane) {n : Nat} (hn : n ≤ 64) : a.toNat / 2 ^ (64 - n) < 2 ^ n := by
  have hpow : 2 ^ 64 = 2 ^ (64 - n) * 2 ^ n := by rw [← pow_add, Nat.sub_add_cancel hn]
  exact Nat.div_lt_of_lt_mul (hpow ▸ a.isLt)

/-- The shifted part and the part brought round share no bit, so their OR is their sum. -/
theorem toNat_rotl64 (a : Lane) {n : Nat} (hn : n < 64) :
    (rotl64 a n).toNat = (a.toNat * 2 ^ n) % 2 ^ 64 + a.toNat / 2 ^ (64 - n) := by
  calc (rotl64 a n).toNat
      = a.toNat * 2 ^ n % 2 ^ 64 ||| a.toNat / 2 ^ (64 - n) := by
        rw [rotl64, BitVec.toNat_rotateLeft, Nat.mod_eq_of_lt hn, Nat.shiftLeft_eq, Nat.shiftRight_eq_div_pow]
    _ = 2 ^ n * (a.toNat % 2 ^ (64 - n)) ||| a.toNat / 2 ^ (64 - n) := by
        rw [shifted_mod_two_pow_64 _ hn.le]
    _ = 2 ^ n * (a.toNat % 2 ^ (64 - n)) + a.toNat / 2 ^ (64 - n) :=
        (Nat.two_pow_add_eq_or_of_lt (top_bits_lt a hn.le) _).symm
    _ = a.toNat * 2 ^ n % 2 ^ 64 + a.toNat / 2 ^ (64 - n) := by
        rw [shifted_mod_two_pow_64 _ hn.le]

/-- Settles O7: the bits of a rotation by the two places a bit can land, its value as a sum of disjoint parts; NOT, XOR and AND
by the library's lemmas on bit vectors. -/
theorem laneOperations : Obligations.LaneOperations := by
  refine ⟨rotl64_zero, ?bits, ?value, ?not, ?bitwise⟩
  case bits => exact fun a n j hn hj => getLsbD_rotl64 a (by omega) (by omega)
  case value => exact fun a n _ hn => toNat_rotl64 a (by omega)
  case not => exact fun a => BitVec.toNat_not
  case bitwise => exact fun a b j => ⟨BitVec.getLsbD_xor, BitVec.getLsbD_and⟩

/-! ### Two ways a command is answered (rules R8, R72) -/

/-- `t` is `s` after a rejection: an error is added to the responses, and nothing else changes. -/
def RejectedTo (s t : State) : Prop := ∃ e, e ≠ .ok ∧ t = s.respond e

/-- `t` is `s` after an accepted command: some phase and context, some bytes emitted, and the response OK. -/
def AcceptedTo (s t : State) : Prop :=
  ∃ p c bytes, t = { s with phase := p, ctx := c, out := s.out ++ bytes, rsps := s.rsps ++ [.ok] }

theorem AcceptedTo.rsps {s t : State} (h : AcceptedTo s t) : t.rsps = s.rsps ++ [.ok] := by
  obtain ⟨p, c, bytes, rfl⟩ := h
  rfl

theorem absorbCommand_answers {bs : List Byte} {s t : State} (h : absorbCommand bs s = .next t) :
    RejectedTo s t ∨ AcceptedTo s t := by
  obtain ⟨-, ht⟩ | ⟨-, -, ht⟩ := absorbCommand_next h
  · exact .inl ⟨_, by decide, ht⟩
  · exact .inr ⟨_, _, _, ht⟩

/-- A command that answers a next state is rejected or accepted, and there is no third way. -/
theorem exec_answers {i : Instr} {s t : State} (h : exec i s = .next t) : RejectedTo s t ∨ AcceptedTo s t := by
  cases i with
  | start v =>
    obtain ⟨-, ht⟩ | ⟨-, -, ht⟩ | ⟨-, d, -, ht⟩ := execStart_next h
    · exact .inl ⟨_, by decide, ht⟩
    · exact .inl ⟨_, by decide, ht⟩
    · exact .inr ⟨_, _, _, ht⟩
  | update0 =>
    obtain ⟨-, ht⟩ | ⟨-, ht⟩ := execUpdate0_next h
    · exact .inl ⟨_, by decide, ht⟩
    · exact .inr ⟨_, _, _, ht⟩
  | update1 b0 => exact absorbCommand_answers h
  | update2 b0 b1 => exact absorbCommand_answers h
  | update3 b0 b1 b2 => exact absorbCommand_answers h
  | finish n =>
    obtain ⟨-, ht⟩ | ⟨-, -, ht⟩ | ⟨-, -, len, -, ht⟩ := finishWith_next h
    · exact .inl ⟨_, by decide, ht⟩
    · exact .inl ⟨_, by decide, ht⟩
    · exact .inr ⟨_, _, _, ht⟩

/-- The step of a word, an ILLEGAL one too, rejects or accepts in the state where the host's pointer has moved on (rule R19). -/
theorem step_word_answers {s t : State} {w : Word32} (hw : s.nextAction = some (.word w)) (h : step s = .next t) :
    RejectedTo s.present t ∨ AcceptedTo s.present t := by
  obtain ⟨hn, -⟩ | ⟨hr, -⟩ | ⟨_, -, -, ht⟩ | ⟨_, _, -, -, hexec⟩ := step_next h
  · cases hw.symm.trans hn
  · cases hw.symm.trans hr
  · exact .inl ⟨_, by decide, ht⟩
  · exact exec_answers hexec

/-- Settles O36: every answer to a command or to a word is a rejection, which is `respond` alone, or an acceptance, which adds
OK. -/
theorem rejectionChangesNothing : Obligations.RejectionChangesNothing := by
  refine ⟨fun i s t h => ?command, fun s t w rest hp h => ?word⟩
  case command => exact (exec_answers h).imp_right AcceptedTo.rsps
  case word =>
    have hw : s.nextAction = some (.word w) := by simp [State.nextAction, hp]
    obtain ⟨e, he, ht⟩ | hacc := step_word_answers hw h
    · exact .inl ⟨e, he, by simp [ht, State.respond, State.present, hp]⟩
    · exact .inr hacc.rsps

end Sys2Proof.Machine

/-!
PROOFS. The family 10_state.md: who writes RATE, FOUT and DSFX, and which values they hold (rules R11, R17).
-/

namespace Sys2Proof.Machine

/-! ### The rows of VROM in bytes (rules R11, R17) -/

theorem mem_vrom_of_variantLookup {v : BitVec 3} {d : Descriptor} (h : variantLookup v = some d) : d ∈ vrom :=
  List.mem_of_getElem? h

/-- The byte counts of a row fit their registers. -/
theorem vrom_bytes_toNat : ∀ d ∈ vrom, d.rateBytes.toNat = d.rateBits.toNat / 8 ∧
    d.fixedOutputBytes.toNat = d.fixedOutputBits.toNat / 8 := by decide

theorem vrom_parameters_mem : ∀ d ∈ vrom, (d.rateBytes, d.fixedOutputBytes, d.domainSuffixByte) ∈
    ([(168, 0, 0x1F), (136, 0, 0x1F), (144, 28, 0x06), (136, 32, 0x06), (104, 48, 0x06), (72, 64, 0x06)] :
      List (BitVec 8 × BitVec 7 × BitVec 8)) := by decide

theorem vrom_rate_bounds : ∀ d ∈ vrom, 72 ≤ d.rateBytes.toNat ∧ d.rateBytes.toNat ≤ 168 ∧ 8 ∣ d.rateBytes.toNat := by
  decide

/-- The suffix tells an XOF from a fixed digest. -/
theorem vrom_suffix_iff : ∀ d ∈ vrom, (d.domainSuffixByte = 0x1F ↔ d.fixedOutputBytes = 0) ∧
    (d.domainSuffixByte = 0x06 ↔ d.fixedOutputBytes ≠ 0) := by decide

/-! ### What a command and a step do to the parameters (rule R17) -/

/-- `c'` holds the parameters of `c`. -/
def Context.SameParameters (c c' : Context) : Prop := c'.rate = c.rate ∧ c'.fout = c.fout ∧ c'.dsfx = c.dsfx

theorem Context.SameParameters.refl (c : Context) : c.SameParameters c := ⟨rfl, rfl, rfl⟩

/-- From `s` to `t` the variant `v` was bound: the row of `VROM` with the id `v` written as START writes it, answered OK. -/
def BoundTo (v : BitVec 3) (s t : State) : Prop :=
  s.phase = .uninitialized ∧ ∃ d, variantLookup v = some d ∧ t.ctx = Context.bind d ∧ t.rsps = s.rsps ++ [.ok]

theorem absorbCommand_keeps_parameters {bs : List Byte} {s t : State} (h : absorbCommand bs s = .next t) :
    s.ctx.SameParameters t.ctx := by
  obtain ⟨-, rfl⟩ | ⟨-, -, rfl⟩ := absorbCommand_next h
  · exact .refl _
  · exact ⟨Context.absorbBytes_rate .., Context.absorbBytes_fout .., Context.absorbBytes_dsfx ..⟩

theorem finishWith_keeps_parameters {cfg : Config} {n : BitVec 22} {s t : State} (h : finishWith cfg n s = .next t) :
    s.ctx.SameParameters t.ctx := by
  obtain ⟨-, rfl⟩ | ⟨-, -, rfl⟩ | ⟨-, -, len, -, rfl⟩ := finishWith_next h
  · exact .refl _
  · exact .refl _
  · exact ⟨Context.squeeze_rate .., Context.squeeze_fout .., Context.squeeze_dsfx ..⟩

theorem execUpdate0_keeps_parameters {s t : State} (h : execUpdate0 s = .next t) : s.ctx.SameParameters t.ctx := by
  obtain ⟨-, rfl⟩ | ⟨-, rfl⟩ := execUpdate0_next h <;> exact .refl _

theorem execStart_keeps_parameters_or_binds {v : BitVec 3} {s t : State} (h : execStart v s = .next t) :
    s.ctx.SameParameters t.ctx ∨ BoundTo v s t := by
  obtain ⟨-, rfl⟩ | ⟨-, -, rfl⟩ | ⟨hp, d, hd, rfl⟩ := execStart_next h
  · exact .inl (.refl _)
  · exact .inl (.refl _)
  · exact .inr ⟨hp, d, hd, rfl, rfl⟩

/-- Only START can write the parameters. -/
theorem exec_keeps_parameters_or_binds {i : Instr} {s t : State} (h : exec i s = .next t) :
    s.ctx.SameParameters t.ctx ∨ ∃ v, i = .start v ∧ BoundTo v s t := by
  cases i with
  | start v => exact (execStart_keeps_parameters_or_binds h).imp_right fun hb => ⟨v, rfl, hb⟩
  | update0 => exact .inl (execUpdate0_keeps_parameters h)
  | update1 b0 => exact .inl (absorbCommand_keeps_parameters h)
  | update2 b0 b1 => exact .inl (absorbCommand_keeps_parameters h)
  | update3 b0 b1 b2 => exact .inl (absorbCommand_keeps_parameters h)
  | finish n => exact .inl (finishWith_keeps_parameters h)

/-- A step keeps the parameters, or is a pulse of `rst`, or is an accepted START. -/
theorem step_keeps_parameters_or_resets_or_binds {s t : State} (h : step s = .next t) :
    s.ctx.SameParameters t.ctx ∨ s.nextAction = some .reset ∨
    ∃ w v, s.nextAction = some (.word w) ∧ decode w = .command (.start v) ∧ BoundTo v s.present t := by
  obtain ⟨-, rfl⟩ | ⟨hr, -⟩ | ⟨w, -, -, rfl⟩ | ⟨w, i, hw, hi, hexec⟩ := step_next h
  · exact .inl (.refl _)
  · exact .inr (.inl hr)
  · exact .inl (.refl _)
  · obtain hsame | ⟨v, rfl, hb⟩ := exec_keeps_parameters_or_binds hexec
    · exact .inl hsame
    · exact .inr (.inr ⟨w, v, hw, hi, hb⟩)

theorem pending_of_nextAction {s : State} {a : HostAction} (h : s.nextAction = some a) : ∃ rest, s.pending = a :: rest :=
  List.head?_eq_some_iff.1 h

/-- Settles O17: the step's three cases, START's row read in bytes; in phases 1 to 3 the invariant's row of `VROM`, whose facts
are read off the table. -/
theorem parametersWrittenByStartOnly : Obligations.ParametersWrittenByStartOnly := by
  refine ⟨fun s t h => ?step, fun s hinv hphase => ?row⟩
  case step =>
    obtain hsame | hreset | ⟨w, v, hw, hdec, hp, d, hd, hctx, hrsps⟩ := step_keeps_parameters_or_resets_or_binds h
    · exact .inl hsame
    · exact .inr (.inl (pending_of_nextAction hreset))
    · obtain ⟨rest, hrest⟩ := pending_of_nextAction hw
      obtain ⟨hrate, hfout⟩ := vrom_bytes_toNat d (mem_vrom_of_variantLookup hd)
      refine .inr (.inr ⟨w, v, d, rest, hrest, hdec, hp, hd, hrsps, ?_⟩)
      rw [hctx]
      exact ⟨hrate, hfout, rfl⟩
  case row =>
    obtain ⟨⟨d, hd, hrate, hfout, hdsfx⟩, -⟩ := hinv.1 hphase
    obtain ⟨hlow, hhigh, hdvd⟩ := vrom_rate_bounds d hd
    rw [hrate, hfout, hdsfx]
    exact ⟨vrom_parameters_mem d hd, hlow, hhigh, hdvd, vrom_suffix_iff d hd⟩

end Sys2Proof.Machine

/-!
PROOFS. The family 20_memory.md: the state-byte space, read and written a byte at a time (rules R20 to R23).
-/

namespace Sys2Proof.Machine

/-! ### The bytes of one lane (rule R3) -/

theorem toNat_laneByte (v : Lane) (p : Nat) : (laneByte v p).toNat = v.toNat / 2 ^ (8 * p) % 256 := by
  simp [laneByte, Nat.shiftRight_eq_div_pow]

theorem getLsbD_laneByte (v : Lane) (p : Nat) {j : Nat} (hj : j < 8) :
    (laneByte v p).getLsbD j = v.getLsbD (8 * p + j) := by
  simp [laneByte, hj]

theorem laneByte_xor (v w : Lane) (p : Nat) : laneByte (v ^^^ w) p = laneByte v p ^^^ laneByte w p :=
  BitVec.extractLsb'_xor

@[simp] theorem laneByte_zero (p : Nat) : laneByte 0#64 p = 0#8 := BitVec.extractLsb'_zero

/-- The value rule R22 prints. -/
theorem byteInLane_eq_ofNat (b : Byte) (p : Nat) : byteInLane b p = BitVec.ofNat 64 (b.toNat * 2 ^ (8 * p)) := by
  apply BitVec.eq_of_toNat_eq
  simp [byteInLane, Nat.shiftLeft_eq]

@[simp] theorem byteInLane_zero (p : Nat) : byteInLane 0#8 p = 0#64 := by
  simp [byteInLane]

theorem byteInLane_xor (b c : Byte) (p : Nat) : byteInLane (b ^^^ c) p = byteInLane b p ^^^ byteInLane c p := by
  simp [byteInLane, BitVec.setWidth_xor, BitVec.shiftLeft_xor_distrib]

/-- A byte put at position `p` of an otherwise zero lane is read at `p`; every other position reads 0. -/
theorem laneByte_byteInLane (b : Byte) {p q : Nat} (hq : q < 8) :
    laneByte (byteInLane b p) q = if q = p then b else 0 := by
  apply BitVec.eq_of_getLsbD_eq
  intro j hj
  have hin : 8 * q + j < 64 := by omega
  rw [getLsbD_laneByte _ _ hj, byteInLane, BitVec.getLsbD_shiftLeft]
  obtain hbelow | rfl | habove := Nat.lt_trichotomy q p
  · have hlow : 8 * q + j < 8 * p := by omega
    simp [hlow, hbelow.ne]
  · have hpos : 8 * q + j - 8 * q = j := by omega
    have hbit : j < 64 := by omega
    simp [hin, hpos, hbit]
  · have hhigh : 8 ≤ 8 * q + j - 8 * p := by omega
    simp [habove.ne', BitVec.getLsbD_of_ge b _ hhigh]

/-! ### Reading and XORing a state byte (rules R21, R22) -/

/-- Every lane after a byte XOR, in one formula. -/
theorem stateByteXor_getElem (a : Lanes) (k : Nat) (b : Byte) {i : Nat} (hi : i < 25) :
    (stateByteXor a k b)[i] = a[i] ^^^ if i = k / 8 then byteInLane b (k % 8) else 0 := by
  split
  case isTrue heq =>
    subst heq
    exact stateByteXor_getElem_same a b hi
  case isFalse hne =>
    rw [stateByteXor_getElem_other a k b hi hne]
    exact BitVec.xor_zero.symm

/-- Every byte after a byte XOR: two addresses are one when they agree in the lane and in the position. -/
theorem stateByteRead_stateByteXor (a : Lanes) (k : Nat) (b : Byte) {k' : Nat} (hk' : k' < 200) :
    stateByteRead (stateByteXor a k b) k' = stateByteRead a k' ^^^ if k' = k then b else 0 := by
  have hlane : k' / 8 < 25 := by omega
  have hpos : k' % 8 < 8 := by omega
  rw [stateByteRead_of_lt _ hlane, stateByteRead_of_lt _ hlane, stateByteXor_getElem a k b hlane, laneByte_xor]
  congr 1
  by_cases hdiv : k' / 8 = k / 8
  · have haddr : k' % 8 = k % 8 ↔ k' = k := by omega
    simp [hdiv, laneByte_byteInLane b hpos, haddr]
  · have haddr : k' ≠ k := by rintro rfl; exact hdiv rfl
    simp [hdiv, haddr]

theorem stateByteXor_zero (a : Lanes) (k : Nat) : stateByteXor a k 0 = a := by
  ext i hi : 1
  simp [stateByteXor_getElem]

theorem stateByteXor_stateByteXor_same (a : Lanes) (k : Nat) (b c : Byte) :
    stateByteXor (stateByteXor a k b) k c = stateByteXor a k (b ^^^ c) := by
  ext i hi : 1
  simp only [stateByteXor_getElem, byteInLane_xor, BitVec.xor_assoc]
  split <;> simp

theorem stateByteXor_comm (a : Lanes) (k k' : Nat) (b c : Byte) :
    stateByteXor (stateByteXor a k b) k' c = stateByteXor (stateByteXor a k' c) k b := by
  ext i hi : 1
  simp only [stateByteXor_getElem, BitVec.xor_assoc]
  exact congrArg (a[i] ^^^ ·) (BitVec.xor_comm _ _)

/-- Settles O8: the byte is a slice of its lane, read as a number and bit by bit. -/
theorem stateByteReadValue : Obligations.StateByteReadValue := by
  intro a k h
  rw [stateByteRead_of_lt a (by omega)]
  exact ⟨toNat_laneByte _ _, fun j hj => getLsbD_laneByte _ _ hj⟩

/-- Settles O9: the lanes and the bytes after a byte XOR, and its laws lane by lane. -/
theorem stateByteXorEffect : Obligations.StateByteXorEffect := by
  intro a k b h
  refine ⟨?lane, fun i hi hne => stateByteXor_getElem_other a k b hi hne, ?byte, fun k' hk' hne => ?otherByte,
    stateByteXor_zero a k, stateByteXor_stateByteXor_same a k b, fun k' _ b' => stateByteXor_comm a k k' b b'⟩
  case lane => rw [stateByteXor_getElem_same a b (by omega), byteInLane_eq_ofNat]
  case byte => simp [stateByteRead_stateByteXor a k b h]
  case otherByte => simp [stateByteRead_stateByteXor a k b hk', hne]

end Sys2Proof.Machine

/-!
PROOFS. The family 30_encoding.md: decoding by the opcode map (rule R36), and the fields of the words (rules R32 to R34).
-/

namespace Sys2Proof

/-! ### Decoding by a table of rows (rule R36) -/

/-- The word is the row's: `(w AND mask) = match`. -/
def OpcodeRow.Matches (r : OpcodeRow) (w : Word32) : Prop := w &&& r.mask = r.pattern

/-- No word is both rows'. -/
def OpcodeRow.Disjoint (r q : OpcodeRow) : Prop := ∀ w, ¬ (r.Matches w ∧ q.Matches w)

/-- Rows are disjoint when their matches differ in a bit that both masks keep. -/
theorem OpcodeRow.disjoint_of_and_ne {r q : OpcodeRow} (h : r.pattern &&& q.mask ≠ q.pattern &&& r.mask) :
    r.Disjoint q := by
  rintro w ⟨hr, hq⟩
  apply h
  calc r.pattern &&& q.mask
      = w &&& r.mask &&& q.mask := by rw [← hr]
    _ = w &&& q.mask &&& r.mask := by rw [BitVec.and_assoc, BitVec.and_comm r.mask, BitVec.and_assoc]
    _ = q.pattern &&& r.mask := by rw [← hq]

theorem decodeBy_cons_of_matches {r : OpcodeRow} {w : Word32} (h : r.Matches w) (rows : List OpcodeRow) :
    decodeBy w (r :: rows) = .command (r.read w) :=
  if_pos h

theorem decodeBy_cons_of_not_matches {r : OpcodeRow} {w : Word32} (h : ¬ r.Matches w) (rows : List OpcodeRow) :
    decodeBy w (r :: rows) = decodeBy w rows :=
  if_neg h

/-- Among disjoint rows the first row that a word matches is the only one. -/
theorem decodeBy_eq_command {rows : List OpcodeRow} (hdisj : rows.Pairwise OpcodeRow.Disjoint) {r : OpcodeRow}
    (hr : r ∈ rows) {w : Word32} (hw : r.Matches w) : decodeBy w rows = .command (r.read w) := by
  induction hdisj with
  | nil => cases hr
  | @cons q rows hq _ ih =>
    obtain rfl | htail := List.mem_cons.1 hr
    · exact decodeBy_cons_of_matches hw rows
    · have hskip : ¬ q.Matches w := fun hqw => hq r htail w ⟨hqw, hw⟩
      rw [decodeBy_cons_of_not_matches hskip, ih htail]

theorem decodeBy_eq_illegal {rows : List OpcodeRow} {w : Word32} (h : ∀ r ∈ rows, ¬ r.Matches w) :
    decodeBy w rows = .illegal := by
  induction rows with
  | nil => rfl
  | cons r rows ih =>
    obtain ⟨hr, hrows⟩ := List.forall_mem_cons.1 h
    rw [decodeBy_cons_of_not_matches hr, ih hrows]

/-- The six rows differ pairwise in `op` or in `cnt`, which the masks of both keep. -/
theorem opcodeMap_disjoint : opcodeMap.Pairwise OpcodeRow.Disjoint := by
  have hdiffer : opcodeMap.Pairwise fun r q => r.pattern &&& q.mask ≠ q.pattern &&& r.mask := by decide
  exact hdiffer.imp OpcodeRow.disjoint_of_and_ne

/-- Settles O3: the table and the operands as the model prints them; the two answers of a table of disjoint rows. -/
theorem decodeByTheOpcodeMap : Obligations.DecodeByTheOpcodeMap := by
  refine ⟨?table, opcodeMap_disjoint, ?row, fun w => ?operands, fun w hnone => ?illegal⟩
  case table => rfl
  case row => exact fun r hr w hw => decodeBy_eq_command opcodeMap_disjoint hr hw
  case operands => rfl
  case illegal => exact decodeBy_eq_illegal hnone

/-! ### The fields of the words (rules R32, R33, R34) -/

/-- A field of the upper part of a word, counted from the word's own bit 0. -/
theorem field_append {m n lo len : Nat} {x : BitVec m} {f : BitVec len} (h : x.extractLsb' lo len = f) (y : BitVec n) :
    (x ++ y).extractLsb' (n + lo) len = f := by
  rw [BitVec.extractLsb'_append_eq_of_le (Nat.le_add_right n lo), Nat.add_sub_cancel_left, h]

theorem fields_of_three_parts {k m n : Nat} (x : BitVec k) (y : BitVec m) (z : BitVec n) :
    let w := x ++ y ++ z
    w.extractLsb' (n + m) k = x ∧ w.extractLsb' n m = y ∧ w.extractLsb' 0 n = z :=
  ⟨field_append BitVec.extractLsb'_append_eq_left z, field_append BitVec.extractLsb'_append_eq_right z,
    BitVec.extractLsb'_append_eq_right⟩

/-- Format U: the control fields `op`, `cnt` and two zero bits above the bytes `b2`, `b1`, `b0`. -/
theorem fields_formatU (op : BitVec 4) (cnt z : BitVec 2) (b2 b1 b0 : Byte) :
    let w : Word32 := op ++ cnt ++ z ++ b2 ++ b1 ++ b0
    w.extractLsb' 28 4 = op ∧ w.extractLsb' 26 2 = cnt ∧ w.extractLsb' 24 2 = z ∧
    w.extractLsb' 16 8 = b2 ∧ w.extractLsb' 8 8 = b1 ∧ w.extractLsb' 0 8 = b0 := by
  intro w
  obtain ⟨hop, hcnt, hz⟩ := fields_of_three_parts op cnt z
  have hcontrol {lo len : Nat} {f : BitVec len} (h : (op ++ cnt ++ z).extractLsb' lo len = f) :
      w.extractLsb' (8 + (8 + (8 + lo))) len = f :=
    field_append (field_append (field_append h b2) b1) b0
  have hbytes := fields_of_three_parts (op ++ cnt ++ z ++ b2) b1 b0
  have hb2 : w.extractLsb' 16 8 = b2 := field_append (field_append BitVec.extractLsb'_append_eq_right b1) b0
  exact ⟨hcontrol hop, hcontrol hcnt, hcontrol hz, hb2, hbytes.right⟩

/-- Settles O4: START and FINISH words have three parts, and the four UPDATE words are format U, zero in the bytes they do not use. -/
theorem formatsOfTheWords : Obligations.FormatsOfTheWords := by
  refine ⟨fun v => ?start, ?update0, fun b0 => ?update1, fun b0 b1 => ?update2, fun b0 b1 b2 => ?update3,
    fun n => ?finish⟩
  case start => exact fields_of_three_parts (1 : BitVec 4) (0 : BitVec 25) v
  case update0 => exact fields_formatU 2 0 0 0 0 0
  case update1 => exact fields_formatU 2 1 0 0 0 b0
  case update2 => exact fields_formatU 2 2 0 0 b1 b0
  case update3 => exact fields_formatU 2 3 0 b2 b1 b0
  case finish => exact fields_of_three_parts (3 : BitVec 4) (0 : BitVec 6) n

end Sys2Proof

/-!
PROOFS. The family 40_permutation.md: the five step mappings lane by lane, the fused walk, the round and KeccakF (rules R40
to R47).
-/

namespace Sys2Proof.Machine

/-! ### Lanes by number -/

theorem lanes_ext {a b : Lanes} (h : ∀ i : Fin 25, a[i] = b[i]) : a = b :=
  Vector.ext fun i hi => h ⟨i, hi⟩

theorem lane_congr (a : Lanes) {i j : Fin 25} (h : i = j) : a[i] = a[j] :=
  congrArg (fun i : Fin 25 => a[i]) h

theorem set_getElem_fin (a : Lanes) (i j : Fin 25) (v : Lane) : (a.set j v)[i] = if i = j then v else a[i] := by
  simp [Vector.getElem_set, Fin.ext_iff, eq_comm]

@[simp] theorem rotl64_zero_lane (n : Nat) : rotl64 0#64 n = 0#64 := by
  simp [rotl64, BitVec.rotateLeft_def]

/-! ### theta (rule R40) -/

theorem columnDiffusion_ofFn (parity : Fin 5 → Lane) (c : Fin 5) :
    columnDiffusion (Vector.ofFn parity) c = parity (c + 4) ^^^ rotl64 (parity (c + 1)) 1 := by
  simp [columnDiffusion]

theorem theta_getElem (a : Lanes) {i : Nat} (hi : i < 25) : (theta a)[i] = a[i] ^^^
    (columnParity a (Fin.ofNat 5 i + 4) ^^^ rotl64 (columnParity a (Fin.ofNat 5 i + 1)) 1) := by
  rw [← columnDiffusion_ofFn]
  simp [theta, Fin.ofNat]

/-- The lane at column `x` of a row is XORed with the diffusion value of column `x`. -/
theorem theta_getElem_coordinates (a : Lanes) (x y : Fin 5) : (theta a)[5 * y.val + x.val] = a[5 * y.val + x.val] ^^^
    (columnParity a (x + 4) ^^^ rotl64 (columnParity a (x + 1)) 1) := by
  have hcolumn : Fin.ofNat 5 (5 * y.val + x.val) = x := Fin.ext (by simp)
  rw [theta_getElem, hcolumn]

/-- With every column even, no lane changes. -/
theorem theta_eq_self {a : Lanes} (heven : ∀ c, columnParity a c = 0) : theta a = a := by
  ext i hi : 1
  simp [theta_getElem, heven]

@[simp] theorem theta_zero : theta Lanes.zero = Lanes.zero :=
  theta_eq_self fun c => by simp [columnParity]

/-- Settles O11: the parities and diffusion values are functions of the input, so they are the model's own; with even columns
every diffusion value is zero. -/
theorem thetaByColumns : Obligations.ThetaByColumns := by
  intro a
  refine ⟨fun parity diffusion hparity hdiffusion x y => ?lanes, fun heven => theta_eq_self heven, theta_zero⟩
  case lanes =>
    obtain rfl : parity = columnParity a := funext hparity
    rw [theta_getElem_coordinates, hdiffusion]

/-! ### rho (rule R41) -/

@[simp] theorem rho_getElem (a : Lanes) {i : Nat} (hi : i < 25) : (rho a)[i] = rotl64 a[i] rotationOffsets[i] := by
  simp [rho]

theorem rho_lane_zero (a : Lanes) : (rho a)[0] = a[0] := by
  rw [rho_getElem]
  exact rotl64_zero a[0]

theorem rotationOffsets_bounds : ∀ i : Fin 25, rotationOffsets[i] ≤ 62 ∧ (rotationOffsets[i] = 0 ↔ i = 0) := by decide

/-- The number of set bits of a lane. -/
def setBits (v : Lane) : Nat := (Finset.univ.filter fun j : Fin 64 => v.getLsbD j.val = true).card

/-- A rotation moves the set bits by `n` places around the lane, which is a bijection of bit positions. -/
theorem setBits_rotl64 (v : Lane) {n : Nat} (hn : n < 64) : setBits (rotl64 v n) = setBits v := by
  refine (Finset.card_equiv (Equiv.addRight (⟨n, hn⟩ : Fin 64)) fun j => ?_).symm
  have hbit := getLsbD_rotl64 v hn j.isLt
  simp only [Finset.mem_filter_univ, Equiv.coe_addRight, Fin.val_add, hbit]

/-! ### pi (rule R42) -/

@[simp] theorem pi_getElem (a : Lanes) {j : Nat} (hj : j < 25) : (pi a)[j] = a[laneSources[j]] := by
  simp [pi]

theorem laneSources_laneDestinations : ∀ i : Fin 25, laneSources[laneDestinations[i]] = i := by decide

theorem pi_lane_destination (a : Lanes) (i : Fin 25) : (pi a)[laneDestinations[i]] = a[i] := by
  calc (pi a)[laneDestinations[i]]
      = a[laneSources[laneDestinations[i]]] := pi_getElem a _
    _ = a[i] := lane_congr a (laneSources_laneDestinations i)

theorem laneSources_coordinates :
    ∀ x y : Fin 5, laneSources[5 * ((2 * x.val + 3 * y.val) % 5) + y.val].val = 5 * y.val + x.val := by decide

/-- Lane 1 reaches every lane but lane 0. -/
theorem laneDestinations_cycle :
    ∀ i : Fin 25, i ≠ 0 → ∃ k : Fin 24, (fun j : Fin 25 => laneDestinations[j])^[k.val] 1 = i := by decide

/-- After `n` times pi a lane holds what `n` steps back along `PIINV` held. -/
theorem pi_iterate_getElem (a : Lanes) (n : Nat) (j : Fin 25) :
    (pi^[n] a)[j] = a[(fun i : Fin 25 => laneSources[i])^[n] j] := by
  induction n generalizing j with
  | zero => rfl
  | succ n ih =>
    calc (pi^[n + 1] a)[j]
        = (pi^[n] a)[laneSources[j]] := by rw [Function.iterate_succ_apply']; exact pi_getElem _ j.isLt
      _ = a[(fun i : Fin 25 => laneSources[i])^[n + 1] j] := ih laneSources[j]

theorem laneSources_order : ∀ j : Fin 25, (fun i : Fin 25 => laneSources[i])^[24] j = j := by decide

theorem pi_iterate_eq_self {n : Nat} (horder : ∀ j : Fin 25, (fun i : Fin 25 => laneSources[i])^[n] j = j) (a : Lanes) :
    pi^[n] a = a :=
  lanes_ext fun j => (pi_iterate_getElem a n j).trans (lane_congr a (horder j))

/-- Settles O12: rho by its bijection of bit positions, pi by the two tables. -/
theorem rhoRotatesAndPiMoves : Obligations.RhoRotatesAndPiMoves := by
  intro a
  refine ⟨fun i => ⟨rho_getElem a i.isLt, rotationOffsets_bounds i⟩, rho_lane_zero a, fun i => ?setBits,
    fun i => ⟨pi_lane_destination a i, pi_getElem a i.isLt⟩, pi_getElem a (by decide), fun x y => ?coordinates,
    laneDestinations_cycle, pi_iterate_eq_self laneSources_order a⟩
  case setBits =>
    have hoffset : rotationOffsets[i] < 64 := (rotationOffsets_bounds i).1.trans_lt (by decide)
    have hlane : (rho a)[i] = rotl64 a[i] rotationOffsets[i] := rho_getElem a i.isLt
    rw [hlane]
    exact setBits_rotl64 a[i] hoffset
  case coordinates =>
    rw [pi_getElem]
    simp [laneSources_coordinates x y]

/-! ### Loops with an ascending index -/

/-- The end of a loop over the indices 0 to `n - 1`, from any account of the states between its steps. -/
theorem foldl_finRange_eq_run {α : Type} {n : Nat} {body : α → Fin n → α} {run : Nat → α}
    (hrun : ∀ k : Fin n, run (k.val + 1) = body (run k.val) k) : (List.finRange n).foldl body (run 0) = run n := by
  induction n with
  | zero => rfl
  | succ n ih =>
    have hinit := ih (body := fun s k => body s k.castSucc) fun k => hrun k.castSucc
    rw [List.finRange_succ_last, List.foldl_append, List.foldl_map, hinit]
    exact (hrun (Fin.last n)).symm

/-- The states between the steps of a loop are determined by the first. -/
theorem run_eq_of_same_body {α : Type} {n : Nat} {body : α → Fin n → α} {run run' : Nat → α} (h0 : run 0 = run' 0)
    (hrun : ∀ k : Fin n, run (k.val + 1) = body (run k.val) k)
    (hrun' : ∀ k : Fin n, run' (k.val + 1) = body (run' k.val) k) {k : Nat} (hk : k ≤ n) : run k = run' k := by
  induction k with
  | zero => exact h0
  | succ k ih => rw [hrun ⟨k, hk⟩, hrun' ⟨k, hk⟩, ih (by omega)]

/-! ### The fused walk (rule R43) -/

/-- The lane whose original content the temporary holds at step `k`: `PILN[k-1]`, lane 1 at first. -/
def carriedLane : Nat → Fin 25
  | 0 => 1
  | k + 1 => if h : k < 24 then walkLanes[k] else 1

/-- The lanes written before step `k`. -/
def walkedLanes (k : Nat) : List (Fin 25) := walkLanes.toList.take k

/-- The lanes before step `k` of the walk: those written are pi(rho(A))'s, the others the input's. -/
def walkLanesAt (a : Lanes) (k : Nat) : Lanes :=
  Vector.ofFn fun i : Fin 25 => if i ∈ walkedLanes k then (pi (rho a))[i] else a[i]

theorem carriedLane_succ (k : Fin 24) : carriedLane (k.val + 1) = walkLanes[k] := by
  simp [carriedLane]

/-- Rule R15: step `k` moves the carried lane by its own rho amount to its own pi destination. -/
theorem carriedLane_tables : ∀ k : Fin 24, laneSources[walkLanes[k]] = carriedLane k.val ∧
    rotationOffsets[carriedLane k.val] = walkRotations[k] := by decide

theorem walkLanes_fresh : ∀ k : Fin 24, walkLanes[k] ∉ walkedLanes k.val := by decide

theorem mem_walkedLanes_succ (k : Fin 24) {i : Fin 25} :
    i ∈ walkedLanes (k.val + 1) ↔ i ∈ walkedLanes k.val ∨ i = walkLanes[k] := by
  have hk : k.val < walkLanes.toList.length := by simp
  simp [walkedLanes, List.take_succ_eq_append_getElem hk]

theorem mem_walkedLanes_end : ∀ i : Fin 25, i ∈ walkedLanes 24 ↔ i ≠ 0 := by decide

theorem rotl64_carriedLane (a : Lanes) (k : Fin 24) :
    rotl64 a[carriedLane k.val] walkRotations[k] = (pi (rho a))[walkLanes[k]] := by
  obtain ⟨hsource, hoffset⟩ := carriedLane_tables k
  calc rotl64 a[carriedLane k.val] walkRotations[k]
      = (rho a)[carriedLane k.val] := by rw [← hoffset]; exact (rho_getElem a _).symm
    _ = (rho a)[laneSources[walkLanes[k]]] := lane_congr (rho a) hsource.symm
    _ = (pi (rho a))[walkLanes[k]] := (pi_getElem _ _).symm

theorem walkLanesAt_getElem (a : Lanes) (k : Nat) (i : Fin 25) :
    (walkLanesAt a k)[i] = if i ∈ walkedLanes k then (pi (rho a))[i] else a[i] := by
  simp [walkLanesAt]

theorem walkLanesAt_zero (a : Lanes) : walkLanesAt a 0 = a :=
  lanes_ext fun i => walkLanesAt_getElem a 0 i

theorem pi_rho_lane_zero (a : Lanes) : (pi (rho a))[0] = a[0] :=
  (pi_getElem (rho a) (by decide)).trans (rho_lane_zero a)

theorem walkLanesAt_end (a : Lanes) : walkLanesAt a 24 = pi (rho a) := by
  refine lanes_ext fun i => ?_
  rw [walkLanesAt_getElem]
  by_cases hzero : i = 0
  · subst hzero
    exact (pi_rho_lane_zero a).symm
  · exact if_pos ((mem_walkedLanes_end i).2 hzero)

theorem walkLanesAt_succ (a : Lanes) (k : Fin 24) :
    walkLanesAt a (k.val + 1) = (walkLanesAt a k.val).set walkLanes[k] (rotl64 a[carriedLane k.val] walkRotations[k]) := by
  refine lanes_ext fun i => ?_
  rw [set_getElem_fin, rotl64_carriedLane, walkLanesAt_getElem, walkLanesAt_getElem]
  by_cases hwritten : i = walkLanes[k]
  · subst hwritten
    simp [mem_walkedLanes_succ]
  · simp only [mem_walkedLanes_succ, hwritten, or_false, if_false]

/-- The lanes and the temporary before step `k` of the walk. -/
def walkAt (a : Lanes) (k : Nat) : Lanes × Lane := (walkLanesAt a k, a[carriedLane k])

theorem walkAt_succ (a : Lanes) (k : Fin 24) : walkAt a (k.val + 1) = walkStep (walkAt a k.val) k := by
  have hkeep : (walkLanesAt a k.val)[walkLanes[k]] = a[walkLanes[k]] := by
    rw [walkLanesAt_getElem, if_neg (walkLanes_fresh k)]
  exact Prod.ext (walkLanesAt_succ a k) ((lane_congr a (carriedLane_succ k)).trans hkeep.symm)

theorem walkAt_zero (a : Lanes) : walkAt a 0 = (a, a[1]) := by
  rw [walkAt, walkLanesAt_zero]
  rfl

theorem rhoPiWalk_eq (a : Lanes) : rhoPiWalk a = pi (rho a) := by
  rw [rhoPiWalk, ← walkAt_zero, foldl_finRange_eq_run (walkAt_succ a)]
  exact walkLanesAt_end a

/-- Settles O13: the lanes and the temporary between the steps in closed form, which any run of the rule's loop agrees with. -/
theorem walkIsRhoThenPi : Obligations.WalkIsRhoThenPi := by
  intro a
  refine ⟨rhoPiWalk_eq a, ?laneZero, ?laneOne, fun lanes t hlanes ht hstep => ?loop⟩
  case laneZero => rw [rhoPiWalk_eq, pi_rho_lane_zero]
  case laneOne =>
    rw [rhoPiWalk_eq, pi_getElem]
    exact rho_getElem a (by decide)
  case loop =>
    have hagree {k : Nat} (hk : k ≤ 24) : (lanes k, t k) = walkAt a k :=
      run_eq_of_same_body (run := fun k => (lanes k, t k)) (body := walkStep)
        (by rw [hlanes, ht, walkAt_zero]) (fun k => Prod.ext (hstep k).1 (hstep k).2) (walkAt_succ a) hk
    refine ⟨?_, fun k => ?_⟩
    · rw [rhoPiWalk_eq, ← walkLanesAt_end]
      exact (congrArg Prod.fst (hagree le_rfl)).symm
    · calc t (k.val + 1)
          = a[carriedLane (k.val + 1)] := congrArg Prod.snd (hagree k.isLt)
        _ = a[walkLanes[k]] := lane_congr a (carriedLane_succ k)

/-! ### chi (rule R44) -/

/-- The lane at column `x` of row `r`, for `x` already below 5. -/
def rowLane (a : Lanes) (r : Fin 5) (x : Fin 5) : Lane := a[5 * r.val + x.val]

theorem rowLane_chi (a : Lanes) (r x : Fin 5) :
    rowLane (chi a) r x = rowLane a r x ^^^ (~~~ rowLane a r (x + 1) &&& rowLane a r (x + 2)) := by
  have hrow : (5 * r.val + x.val) / 5 = r.val := by omega
  simp [rowLane, chi, laneAt, hrow, Fin.val_add, Nat.add_assoc]

theorem rowLane_chi_of_zero_row {a : Lanes} {r : Fin 5} (hzero : ∀ x, rowLane a r x = 0) (x : Fin 5) :
    rowLane (chi a) r x = 0 := by
  simp [rowLane_chi, hzero]

/-- The one nonzero lane `x` is seen by itself and, two to the right, by `x + 3`. -/
theorem rowLane_chi_of_one_lane {a : Lanes} {r x : Fin 5} (hzero : ∀ y, y ≠ x → rowLane a r y = 0) (y : Fin 5) :
    rowLane (chi a) r y = if y = x ∨ y = x + 3 then rowLane a r x else 0 := by
  rw [rowLane_chi]
  by_cases hself : y = x
  · subst hself
    rw [hzero (y + 2) (by omega)]
    simp
  · rw [hzero y hself]
    by_cases hleft : y = x + 3
    · have hsees : y + 2 = x := by omega
      rw [hzero (y + 1) (by omega), hsees]
      simp only [hleft, or_true, if_true, BitVec.ofNat_eq_ofNat, BitVec.not_zero, BitVec.allOnes_and, BitVec.zero_xor]
    · rw [hzero (y + 2) (by omega)]
      simp [hself, hleft]

@[simp] theorem chi_zero : chi Lanes.zero = Lanes.zero := by
  ext i hi : 1
  simp [chi, laneAt]

/-! ### iota (rule R45) -/

theorem iota_lane_zero (a : Lanes) (ir : Fin 24) : (iota a ir)[0] = a[0] ^^^ roundConstants[ir] := by
  simp [iota]

theorem iota_other_lane (a : Lanes) (ir : Fin 24) {i : Nat} (hi : i < 25) (hne : i ≠ 0) : (iota a ir)[i] = a[i] := by
  simp [iota, hne.symm]

theorem iota_iota (a : Lanes) (ir : Fin 24) : iota (iota a ir) ir = a := by
  ext i hi : 1
  by_cases hzero : i = 0
  · subst hzero
    simp [iota_lane_zero]
  · simp [iota_other_lane, hzero]

/-- Settles O14: chi by the columns of a row, iota by lane. -/
theorem chiByRowsAndIota : Obligations.ChiByRowsAndIota := by
  intro a
  exact ⟨rowLane_chi a, fun r hzero => rowLane_chi_of_zero_row hzero, fun r x hzero => rowLane_chi_of_one_lane hzero,
    fun ir => ⟨iota_lane_zero a ir, fun i hi hne => iota_other_lane a ir hi hne, iota_iota a ir⟩⟩

/-! ### The round and KeccakF (rules R46, R47) -/

@[simp] theorem rho_zero : rho Lanes.zero = Lanes.zero := by
  ext i hi : 1
  simp

@[simp] theorem pi_zero : pi Lanes.zero = Lanes.zero := by
  ext i hi : 1
  simp

theorem keccakRound_zero (ir : Fin 24) : keccakRound Lanes.zero ir = Lanes.zero.set 0 roundConstants[ir] := by
  simp [keccakRound, iota]

theorem keccakF_eq_run {a : Lanes} {run : Nat → Lanes} (h0 : run 0 = a)
    (hrun : ∀ ir : Fin 24, run (ir.val + 1) = keccakRound (run ir.val) ir) : keccakF a = run 24 := by
  rw [keccakF, ← h0, foldl_finRange_eq_run hrun]

/-- Rule R47, example. -/
theorem keccakF_zero_lane_zero : (keccakF Lanes.zero)[0] = 0xF1258F7940E1DDE7 := by
  decide +kernel

theorem keccakF_zero_ne : keccakF Lanes.zero ≠ Lanes.zero := by
  intro hfixed
  have hlane := keccakF_zero_lane_zero
  rw [hfixed] at hlane
  exact absurd hlane (by decide)

/-- Settles O15: the round by definition and by the walk's equality with pi(rho(A)); KeccakF as a loop; one lane of KeccakF of
the all-zero state. -/
theorem keccakFIsTwentyFourRounds : Obligations.KeccakFIsTwentyFourRounds := by
  refine ⟨fun a ir => ⟨rfl, ?walk⟩, keccakRound_zero, fun a run h0 hrun => keccakF_eq_run h0 hrun, keccakF_zero_ne⟩
  case walk => rw [rhoPiWalk_eq, keccakRound]

end Sys2Proof.Machine

/-!
PROOFS. The family 41_variant_rom_start.md: the rows of VariantLookup, and what START does in each phase (rules R50, R51).
-/

namespace Sys2Proof.Machine

/-! ### The rows of VariantLookup (rule R50) -/

/-- `VROM` has six rows, so exactly the ids 6 and 7 have no entry. -/
theorem variantLookup_eq_none_iff {v : BitVec 3} : variantLookup v = none ↔ 6 ≤ v.toNat :=
  List.getElem?_eq_none_iff

/-- Both divisions by 8 of rule R17 are exact. -/
theorem vrom_bytes_exact : ∀ d ∈ vrom, d.rateBytes.toNat * 8 = d.rateBits.toNat ∧
    d.fixedOutputBytes.toNat * 8 = d.fixedOutputBits.toNat := by decide

/-- Settles O16: the rows as `VROM` lists them, no row for 6 and 7; the facts of every row read off the table. -/
theorem variantTable : Obligations.VariantTable := by
  refine ⟨rfl, rfl, rfl, rfl, rfl, rfl, ?six, ?seven, fun v d hd => ?row⟩
  case six => exact variantLookup_eq_none_iff.2 (by decide)
  case seven => exact variantLookup_eq_none_iff.2 (by decide)
  case row =>
    have hmem : d ∈ vrom := mem_vrom_of_variantLookup hd
    obtain ⟨hlow, hhigh, hdvd⟩ := vrom_rate_bounds d hmem
    obtain ⟨hrate, hfout⟩ := vrom_bytes_exact d hmem
    exact ⟨hlow, hhigh, hdvd, hrate, hfout, vrom_suffix_iff d hmem⟩

/-! ### START (rule R51) -/

/-- What START takes from a row: `RATE`, `FOUT` and `DSFX`. -/
def Descriptor.parameters (d : Descriptor) : BitVec 8 × BitVec 7 × BitVec 8 :=
  (d.rateBytes, d.fixedOutputBytes, d.domainSuffixByte)

theorem variantLookup_parameters : ∀ row ∈
    ([(0, 168, 0, 0x1F), (1, 136, 0, 0x1F), (2, 144, 28, 0x06), (3, 136, 32, 0x06), (4, 104, 48, 0x06), (5, 72, 64, 0x06)] :
      List (BitVec 3 × BitVec 8 × BitVec 7 × BitVec 8)),
    (variantLookup row.1).map Descriptor.parameters = some row.2 := by
  simp only [List.forall_mem_cons]
  exact ⟨rfl, rfl, rfl, rfl, rfl, rfl, List.forall_mem_nil _⟩

theorem decode_start {w : Word32} (h : w &&& 0xFFFFFFF8 = 0x10000000) : decode w = .command (.start (variantOperand w)) :=
  (decode_chain w).trans (if_pos h)

theorem exec_start_of_entry {v : BitVec 3} {s : State} {d : Descriptor} (hp : s.phase = .uninitialized)
    (hd : variantLookup v = some d) : exec (.start v) s =
      .next { s with phase := .started, ctx := Context.bind d, rsps := s.rsps ++ [.ok] } := by
  simp [exec, execStart, accept, hp, hd]

theorem exec_start_of_no_entry {v : BitVec 3} {s : State} (hp : s.phase = .uninitialized)
    (hv : variantLookup v = none) : exec (.start v) s = .next (s.respond .invalidVariant) := by
  simp [exec, execStart, reject, hp, hv]

/-- The phase check comes before the operand check, so the id does not matter (rule R78). -/
theorem exec_start_of_other_phase (v : BitVec 3) {s : State} (hp : s.phase ≠ .uninitialized) :
    exec (.start v) s = .next (s.respond .protocolViolation) := by
  simp [exec, execStart, reject, hp]

/-- Settles O18: START's row is the first of the opcode map; then START's three answers, by the phase and the entry of the id. -/
theorem startBindsTheVariant : Obligations.StartBindsTheVariant := by
  refine ⟨fun w hw => decode_start hw, fun v s => ⟨?entry, ?row, ?noEntry, ?otherPhase⟩⟩
  case entry => exact fun hp d hd => exec_start_of_entry hp hd
  case row =>
    rintro hp ⟨id, parameters⟩ hrow rfl
    obtain ⟨d, hd, rfl⟩ := Option.map_eq_some_iff.1 (variantLookup_parameters _ hrow)
    exact exec_start_of_entry hp hd
  case noEntry => exact fun hp hv => exec_start_of_no_entry hp (variantLookup_eq_none_iff.2 hv)
  case otherPhase => exact fun hp => exec_start_of_other_phase v hp

end Sys2Proof.Machine

/-!
PROOFS. The family 42_absorb.md: AbsorbByte, the four encodings of UPDATE, and the cutting of a message into UPDATE words
(rules R55 to R60).
-/

namespace Sys2Proof

/-! ### The words of UPDATE (rules R56 to R59) -/

/-- A word that decodes to a command matches the row that reads it so. -/
theorem exists_matching_row_of_decodeBy {w : Word32} {i : Instr} {rows : List OpcodeRow}
    (h : decodeBy w rows = .command i) : ∃ r ∈ rows, r.Matches w ∧ r.read w = i := by
  induction rows with
  | nil => cases h
  | cons r rows ih =>
    by_cases hw : r.Matches w
    · rw [decodeBy_cons_of_matches hw] at h
      exact ⟨r, List.mem_cons_self, hw, Decoded.command.inj h⟩
    · rw [decodeBy_cons_of_not_matches hw] at h
      obtain ⟨q, hq, hread⟩ := ih h
      exact ⟨q, List.mem_cons_of_mem r hq, hread⟩

/-- Only one row of the opcode map reads UPDATE.0, and its mask keeps every bit. -/
theorem decode_eq_update0_iff {w : Word32} : decode w = .command .update0 ↔ w = 0x20000000 := by
  constructor
  · intro h
    obtain ⟨r, hr, hw, hread⟩ := exists_matching_row_of_decodeBy h
    simp only [opcodeMap, List.mem_cons, List.not_mem_nil, or_false] at hr
    obtain rfl | rfl | rfl | rfl | rfl | rfl := hr <;> cases hread
    exact BitVec.and_allOnes.symm.trans hw
  · rintro rfl
    rfl

theorem decode_of_matches_row {n : Nat} (hn : n < opcodeMap.length) {w : Word32} (hw : opcodeMap[n].Matches w) :
    decode w = .command (opcodeMap[n].read w) :=
  decodeBy_eq_command opcodeMap_disjoint (List.getElem_mem hn) hw

end Sys2Proof

namespace Sys2Proof.Machine

/-! ### One byte (rule R55) -/

/-- After an increment the cursor is 0 exactly at the end of the block. -/
theorem Context.wrapped_advance_iff {c : Context} (h : c.inRange = true) :
    c.advance.wrapped = true ↔ c.idx.toNat + 1 = c.rate.toNat := by
  obtain ⟨hidx, -⟩ := c.inRange_iff.1 h
  have hzero : c.advance.wrapped = true ↔ (c.idx.toNat + 1) % c.rate.toNat = 0 := by
    rw [← c.advance_idx_toNat h, Context.wrapped, beq_iff_eq, ← BitVec.toNat_inj]
    rfl
  rw [hzero]
  obtain hbelow | hend : c.idx.toNat + 1 < c.rate.toNat ∨ c.idx.toNat + 1 = c.rate.toNat := by omega
  · rw [Nat.mod_eq_of_lt hbelow]
    omega
  · simp [hend]

@[simp] theorem Context.takeByte_wrapped (b : Byte) (c : Context) : (c.takeByte b).wrapped = c.advance.wrapped := rfl

theorem Context.absorbByte_idx_toNat (b : Byte) {c : Context} (h : c.inRange = true) :
    (c.absorbByte b).idx.toNat = (c.idx.toNat + 1) % c.rate.toNat := by
  rw [Context.absorbByte_idx, c.advance_idx_toNat h]

/-- The lanes after AbsorbByte: the byte is in before the permutation runs. -/
theorem Context.absorbByte_lanes (b : Byte) {c : Context} (h : c.inRange = true) :
    (c.absorbByte b).lanes =
      if c.idx.toNat + 1 = c.rate.toNat then keccakF (stateByteXor c.lanes c.idx.toNat b)
      else stateByteXor c.lanes c.idx.toNat b := by
  simp only [Context.absorbByte, Context.permuteIfWrapped, Context.takeByte_wrapped, Context.wrapped_advance_iff h]
  split <;> rfl

/-- Settles O20: the lanes and the cursor after AbsorbByte, below the end of the block and at it. -/
theorem absorbByteEffect : Obligations.AbsorbByteEffect := by
  intro c b hidx hrate
  have hin : c.inRange = true := c.inRange_iff.2 ⟨hidx, hrate⟩
  refine ⟨c.absorbByte_rate b, c.absorbByte_fout b, c.absorbByte_dsfx b, fun hbelow => ⟨?lanes, ?cursor⟩,
    fun hend => ⟨?lanesAtEnd, ?cursorAtEnd⟩⟩
  case lanes => rw [Context.absorbByte_lanes b hin, if_neg hbelow.ne]
  case cursor => rw [Context.absorbByte_idx_toNat b hin, Nat.mod_eq_of_lt hbelow]
  case lanesAtEnd => rw [Context.absorbByte_lanes b hin, if_pos hend]
  case cursorAtEnd =>
    apply BitVec.eq_of_toNat_eq
    rw [Context.absorbByte_idx_toNat b hin, hend, Nat.mod_self]
    rfl

/-! ### The cursor over a sequence of bytes (rule R60) -/

theorem Context.absorbBytes_idx_toNat (bs : List Byte) {c : Context} (h : c.inRange = true) :
    (c.absorbBytes bs).idx.toNat = (c.idx.toNat + bs.length) % c.rate.toNat := by
  induction bs generalizing c with
  | nil =>
    obtain ⟨hidx, -⟩ := c.inRange_iff.1 h
    exact (Nat.mod_eq_of_lt hidx).symm
  | cons b bs ih =>
    rw [Context.absorbBytes_cons, ih (c.absorbByte_inRange b h), Context.absorbByte_idx_toNat b h,
      Context.absorbByte_rate, Nat.mod_add_mod, List.length_cons, Nat.add_right_comm, Nat.add_assoc]

/-- Counted from the start of the block, every `RATE`-th byte brings one permutation. -/
theorem Context.absorbPermutations_eq (bs : List Byte) {c : Context} (h : c.inRange = true) :
    c.absorbPermutations bs = (c.idx.toNat + bs.length) / c.rate.toNat := by
  induction bs generalizing c with
  | nil =>
    obtain ⟨hidx, -⟩ := c.inRange_iff.1 h
    exact (Nat.div_eq_of_lt hidx).symm
  | cons b bs ih =>
    obtain ⟨hidx, -⟩ := c.inRange_iff.1 h
    rw [Context.absorbPermutations, ih (c.absorbByte_inRange b h), Context.absorbByte_idx_toNat b h,
      Context.absorbByte_rate]
    simp only [Context.takeByte_wrapped, Context.wrapped_advance_iff h]
    split
    case isTrue hend =>
      have hbytes : c.idx.toNat + (b :: bs).length = bs.length + c.rate.toNat := by simp; omega
      rw [hend, Nat.mod_self, hbytes, Nat.add_div_right _ (by omega), Nat.zero_add, Nat.add_comm]
    case isFalse hne =>
      have hbytes : c.idx.toNat + (b :: bs).length = c.idx.toNat + 1 + bs.length := by simp; omega
      rw [Nat.mod_eq_of_lt (by omega), hbytes, Nat.zero_add]

/-- A sequence no longer than a block wraps the cursor at most once. -/
theorem Context.absorbPermutations_le_one {bs : List Byte} {c : Context} (h : c.inRange = true)
    (hlen : bs.length ≤ c.rate.toNat) : c.absorbPermutations bs ≤ 1 := by
  obtain ⟨hidx, -⟩ := c.inRange_iff.1 h
  rw [Context.absorbPermutations_eq bs h]
  exact Nat.le_of_lt_succ (Nat.div_lt_of_lt_mul (by omega))

/-! ### One UPDATE word (rules R56 to R59) -/

theorem Phase.holdsContext_iff {p : Phase} : p.holdsContext = true ↔ p = .started ∨ p = .absorbing := by
  cases p <;> decide

theorem Phase.not_holdsContext_iff {p : Phase} : p.holdsContext = false ↔ p = .uninitialized ∨ p = .finished := by
  cases p <;> decide

theorem absorbCommand_of_inRange (bs : List Byte) {s : State} (hp : s.phase.holdsContext = true)
    (hin : s.ctx.inRange = true) : absorbCommand bs s =
      .next { s with phase := .absorbing, ctx := s.ctx.absorbBytes bs, rsps := s.rsps ++ [.ok] } := by
  simp [absorbCommand, withCursor, accept, hp, hin]

theorem absorbCommand_of_no_context (bs : List Byte) {s : State} (hp : s.phase.holdsContext = false) :
    absorbCommand bs s = .next (s.respond .protocolViolation) := by
  simp [absorbCommand, reject, hp]

theorem exec_update0_of_context {s : State} (hp : s.phase.holdsContext = true) :
    exec .update0 s = .next (s.respond .ok) := by
  simp [exec, execUpdate0, accept, State.respond, hp]

theorem exec_update0_of_no_context {s : State} (hp : s.phase.holdsContext = false) :
    exec .update0 s = .next (s.respond .protocolViolation) := by
  simp [exec, execUpdate0, reject, hp]

/-- Settles O21: the one word that decodes to UPDATE.0, and the command's two answers. -/
theorem updateZeroIsANoOp : Obligations.UpdateZeroIsANoOp :=
  ⟨fun _ => decode_eq_update0_iff, fun _ =>
    ⟨fun hp => exec_update0_of_context (Phase.holdsContext_iff.2 hp),
      fun hp => exec_update0_of_no_context (Phase.not_holdsContext_iff.2 hp)⟩⟩

/-- Settles O22: the rows of the opcode map; then the three commands are `absorbCommand`, which absorbs or rejects, and their
bytes are fewer than a block. -/
theorem updateAbsorbsItsBytes : Obligations.UpdateAbsorbsItsBytes := by
  refine ⟨fun w => ⟨?update1, ?update2, ?update3⟩, fun b0 b1 b2 s =>
    ⟨fun hphase hidx hrate => ?absorbs, fun hphase => ?rejects⟩⟩
  case update1 => exact fun hw => decode_of_matches_row (n := 2) (by decide) hw
  case update2 => exact fun hw => decode_of_matches_row (n := 3) (by decide) hw
  case update3 => exact fun hw => decode_of_matches_row (n := 4) (by decide) hw
  case absorbs =>
    have hp := Phase.holdsContext_iff.2 hphase
    have hin := s.ctx.inRange_iff.2 ⟨hidx, hrate⟩
    refine ⟨absorbCommand_of_inRange [b0] hp hin, absorbCommand_of_inRange [b0, b1] hp hin,
      absorbCommand_of_inRange [b0, b1, b2] hp hin, fun hbound => ?onePermutation⟩
    have honce {bs : List Byte} (hlen : bs.length ≤ 3) : s.ctx.absorbPermutations bs ≤ 1 :=
      Context.absorbPermutations_le_one hin (by omega)
    exact ⟨honce (by simp), honce (by simp), honce (by simp)⟩
  case rejects =>
    have hp := Phase.not_holdsContext_iff.2 hphase
    exact ⟨absorbCommand_of_no_context [b0] hp, absorbCommand_of_no_context [b0, b1] hp,
      absorbCommand_of_no_context [b0, b1, b2] hp⟩

/-! ### A sequence of UPDATE words (rule R60) -/

/-- The state after UPDATE words that carry the byte sequences `bss`, one word each, when all are accepted: an empty message
leaves `PHASE` as it was (rule R56). -/
def State.afterUpdates (bss : List (List Byte)) (s : State) : State :=
  { s with
    phase := if bss.flatten = [] then s.phase else .absorbing
    ctx := s.ctx.absorbBytes bss.flatten
    rsps := s.rsps ++ List.replicate bss.length .ok }

theorem State.afterUpdates_nil (s : State) : s.afterUpdates [] = s := by
  simp [State.afterUpdates]

theorem State.afterUpdates_cons (bs : List Byte) (bss : List (List Byte)) (s : State) :
    s.afterUpdates (bs :: bss) = (s.afterUpdates [bs]).afterUpdates bss := by
  by_cases hrest : bss.flatten = [] <;>
    simp [State.afterUpdates, Context.absorbBytes_append, List.replicate_succ, hrest]

theorem State.afterUpdates_holdsContext (bss : List (List Byte)) {s : State} (hp : s.phase.holdsContext = true) :
    (s.afterUpdates bss).phase.holdsContext = true := by
  unfold State.afterUpdates
  split
  · exact hp
  · rfl

theorem State.afterUpdates_inRange (bss : List (List Byte)) {s : State} (hin : s.ctx.inRange = true) :
    (s.afterUpdates bss).ctx.inRange = true :=
  s.ctx.absorbBytes_inRange bss.flatten hin

/-- Every UPDATE word is accepted in phases 1 and 2 and absorbs its bytes. -/
theorem exec_of_updateBytes {i : Instr} {bs : List Byte} {s : State} (hi : updateBytes i = some bs)
    (hp : s.phase.holdsContext = true) (hin : s.ctx.inRange = true) : exec i s = .next (s.afterUpdates [bs]) := by
  cases i with
  | start v => cases hi
  | update0 => cases hi; exact exec_update0_of_context hp
  | update1 b0 => cases hi; exact absorbCommand_of_inRange [b0] hp hin
  | update2 b0 b1 => cases hi; exact absorbCommand_of_inRange [b0, b1] hp hin
  | update3 b0 b1 b2 => cases hi; exact absorbCommand_of_inRange [b0, b1, b2] hp hin
  | finish n => cases hi

theorem execAll_of_updateBytes {is : List Instr} {bss : List (List Byte)} {s : State}
    (his : is.map updateBytes = bss.map some) (hp : s.phase.holdsContext = true) (hin : s.ctx.inRange = true) :
    execAll is s = .next (s.afterUpdates bss) := by
  induction is generalizing bss s with
  | nil =>
    obtain rfl : bss = [] := List.map_eq_nil_iff.1 his.symm
    rw [State.afterUpdates_nil, execAll]
  | cons i is ih =>
    cases bss with
    | nil => cases his
    | cons bs bss =>
      obtain ⟨hi, hrest⟩ := List.cons.inj his
      simp only [execAll, exec_of_updateBytes hi hp hin]
      rw [ih hrest (s.afterUpdates_holdsContext [bs] hp) (s.afterUpdates_inRange [bs] hin), ← State.afterUpdates_cons]

/-- START leaves the cursor inside the rate region. -/
theorem Context.bind_inRange {d : Descriptor} (hd : d ∈ vrom) : (Context.bind d).inRange = true := by
  obtain ⟨hlow, hhigh, -⟩ := vrom_rate_bounds d hd
  exact (Context.bind d).inRange_iff.2 ⟨by simp; omega, by simp; omega⟩

/-- Settles O24: what the words of a sequence do is `afterUpdates`, which sees the concatenation of their bytes only; the
cursor and its wraps counted from START, where it is at 0. -/
theorem chunkIndependence : Obligations.ChunkIndependence := by
  refine ⟨fun is js bss css s his hjs hsame hphase hidx hrate => ?cuts, fun d m hd => ⟨?cursor, ?wraps⟩⟩
  case cuts =>
    have hp := Phase.holdsContext_iff.2 hphase
    have hin := s.ctx.inRange_iff.2 ⟨hidx, hrate⟩
    refine ⟨_, _, execAll_of_updateBytes his hp hin, execAll_of_updateBytes hjs hp hin, ?context, rfl, rfl, rfl,
      fun hne => ⟨if_neg hne, if_neg (hsame ▸ hne)⟩⟩
    exact congrArg (Context.absorbBytes · s.ctx) hsame
  case cursor => simp [Context.absorbBytes_idx_toNat m (Context.bind_inRange hd)]
  case wraps => simp [Context.absorbPermutations_eq m (Context.bind_inRange hd)]

end Sys2Proof.Machine

/-!
PROOFS. The family 43_finish.md: SqueezeByte and its repetition, the output length, and FINISH (rules R61, R62, R64, R65).
-/

namespace Sys2Proof.Machine

/-! ### The cursor and the lanes while bytes are squeezed (rules R61, R62 step 5) -/

/-- The permutations of one SqueezeByte, counted from the start of the block: one at the end of it, none below. -/
theorem Context.afterSqueeze_lanes {c : Context} (h : c.inRange = true) :
    c.afterSqueeze.lanes = keccakF^[(c.idx.toNat + 1) / c.rate.toNat] c.lanes := by
  obtain ⟨hidx, -⟩ := c.inRange_iff.1 h
  simp only [Context.afterSqueeze, Context.permuteIfWrapped, Context.wrapped_advance_iff h]
  split
  case isTrue hend =>
    have hone : (c.idx.toNat + 1) / c.rate.toNat = 1 := by rw [hend, Nat.div_self (by omega)]
    rw [hone]
    rfl
  case isFalse hne =>
    have hnone : (c.idx.toNat + 1) / c.rate.toNat = 0 := Nat.div_eq_of_lt (by omega)
    rw [hnone]
    rfl

theorem Context.afterSqueeze_idx_toNat {c : Context} (h : c.inRange = true) :
    c.afterSqueeze.idx.toNat = (c.idx.toNat + 1) % c.rate.toNat := by
  rw [Context.afterSqueeze_idx, c.advance_idx_toNat h]

theorem Context.squeeze_idx_toNat (n : Nat) {c : Context} (h : c.inRange = true) :
    (c.squeeze n).2.idx.toNat = (c.idx.toNat + n) % c.rate.toNat := by
  induction n generalizing c with
  | zero =>
    obtain ⟨hidx, -⟩ := c.inRange_iff.1 h
    exact (Nat.mod_eq_of_lt hidx).symm
  | succ n ih =>
    rw [Context.squeeze_succ, ih (c.afterSqueeze_inRange h), Context.afterSqueeze_idx_toNat h, Context.afterSqueeze_rate,
      Nat.mod_add_mod, Nat.add_right_comm, Nat.add_assoc]

/-- Counted from the start of the block, every `RATE`-th byte squeezed brings one permutation. -/
theorem Context.squeeze_lanes (n : Nat) {c : Context} (h : c.inRange = true) :
    (c.squeeze n).2.lanes = keccakF^[(c.idx.toNat + n) / c.rate.toNat] c.lanes := by
  induction n generalizing c with
  | zero =>
    obtain ⟨hidx, -⟩ := c.inRange_iff.1 h
    rw [Nat.add_zero, Nat.div_eq_of_lt hidx]
    rfl
  | succ n ih =>
    obtain ⟨hidx, -⟩ := c.inRange_iff.1 h
    have hcount : ((c.idx.toNat + 1) % c.rate.toNat + n) / c.rate.toNat + (c.idx.toNat + 1) / c.rate.toNat =
        (c.idx.toNat + (n + 1)) / c.rate.toNat := by
      rw [← Nat.add_mul_div_left _ _ (by omega), Nat.add_right_comm, Nat.mod_add_div, Nat.add_right_comm, Nat.add_assoc]
    rw [Context.squeeze_succ, ih (c.afterSqueeze_inRange h), Context.afterSqueeze_idx_toNat h, Context.afterSqueeze_lanes h,
      Context.afterSqueeze_rate, ← Function.iterate_add_apply, hcount]

/-- Settles O26: one byte squeezed, with the cursor and the count of permutations below the end of the block and at it. -/
theorem squeezeByteEffect : Obligations.SqueezeByteEffect := by
  intro c hidx hrate
  have hin : c.inRange = true := c.inRange_iff.2 ⟨hidx, hrate⟩
  refine ⟨rfl, c.squeeze_rate 1, c.squeeze_fout 1, c.squeeze_dsfx 1, fun hbelow => ⟨?lanes, ?cursor⟩,
    fun hend => ⟨?lanesAtEnd, ?cursorAtEnd⟩⟩
  case lanes => rw [Context.squeeze_lanes 1 hin, Nat.div_eq_of_lt hbelow, Function.iterate_zero_apply]
  case cursor => rw [Context.squeeze_idx_toNat 1 hin, Nat.mod_eq_of_lt hbelow]
  case lanesAtEnd => rw [Context.squeeze_lanes 1 hin, hend, Nat.div_self (by omega), Function.iterate_one]
  case cursorAtEnd =>
    apply BitVec.eq_of_toNat_eq
    rw [Context.squeeze_idx_toNat 1 hin, hend, Nat.mod_self]
    rfl

/-! ### The output length (rule R64) -/

theorem outputLength_eq_some_iff {cfg : Config} {fout : BitVec 7} {n : BitVec 22} {len : Nat} :
    outputLength cfg fout n = some len ↔
      fout ≠ 0 ∧ len = fout.toNat ∨ fout = 0 ∧ len = n.toNat ∧ cfg.outlenMin ≤ n.toNat ∧ n.toNat ≤ cfg.outlenMax := by
  unfold outputLength
  split
  case isTrue hfixed =>
    simp only [hfixed, ne_eq, not_false_eq_true, true_and, false_and, or_false, Option.some_inj, eq_comm (a := len)]
  case isFalse hxof =>
    rw [not_not] at hxof
    split
    case isTrue hbounds => simp [hxof, hbounds, eq_comm (a := len)]
    case isFalse hbounds => simp [hxof, hbounds]

theorem outputLength_eq_none {cfg : Config} {fout : BitVec 7} {n : BitVec 22} (hxof : fout = 0)
    (hn : n.toNat < cfg.outlenMin ∨ cfg.outlenMax < n.toNat) : outputLength cfg fout n = none := by
  have hbounds : ¬ (cfg.outlenMin ≤ n.toNat ∧ n.toNat ≤ cfg.outlenMax) := by omega
  simp [outputLength, hxof, hbounds]

/-! ### FINISH in each phase (rule R62) -/

/-- The state an accepted FINISH of `len` bytes leaves. -/
def State.afterFinish (len : Nat) (s : State) : State :=
  { s with
    phase := .finished
    ctx := (s.ctx.closeAbsorption.squeeze len).2
    out := s.out ++ (s.ctx.closeAbsorption.squeeze len).1
    rsps := s.rsps ++ [.ok] }

@[simp] theorem State.afterFinish_out (len : Nat) (s : State) :
    (s.afterFinish len).out = s.out ++ (s.ctx.closeAbsorption.squeeze len).1 := rfl
@[simp] theorem State.afterFinish_ctx (len : Nat) (s : State) :
    (s.afterFinish len).ctx = (s.ctx.closeAbsorption.squeeze len).2 := rfl

theorem finishWith_of_length {cfg : Config} {n : BitVec 22} {s : State} {len : Nat} (hp : s.phase.holdsContext = true)
    (hin : s.ctx.inRange = true) (hlen : outputLength cfg s.ctx.fout n = some len) :
    finishWith cfg n s = .next (s.afterFinish len) := by
  simp [finishWith, withCursor, accept, State.afterFinish, hp, hin, hlen]

theorem finishWith_of_bad_length {cfg : Config} {n : BitVec 22} {s : State} (hp : s.phase.holdsContext = true)
    (hxof : s.ctx.fout = 0) (hn : n.toNat < cfg.outlenMin ∨ cfg.outlenMax < n.toNat) :
    finishWith cfg n s = .next (s.respond .invalidOutputLength) := by
  simp [finishWith, reject, hp, outputLength_eq_none hxof hn]

/-- The phase check comes before the length check, so the length does not matter (rule R78). -/
theorem finishWith_of_no_context (cfg : Config) (n : BitVec 22) {s : State} (hp : s.phase.holdsContext = false) :
    finishWith cfg n s = .next (s.respond .protocolViolation) := by
  simp [finishWith, reject, hp]

/-- Settles O27: the two sources of the length, an XOF's length outside the bounds, and the bounds of `SBCORE-1` at their ends. -/
theorem outputLengthRule : Obligations.OutputLengthRule := by
  refine ⟨fun cfg fout n hfixed => ?fixed, fun cfg n => ⟨fun hbounds => ?xof, fun hn s hphase hxof => ?rejected⟩,
    fun n s => rfl, rfl, rfl, ?valid, ?least, ?greatest, ?zero, ?tooLong⟩
  case fixed => exact outputLength_eq_some_iff.2 (.inl ⟨hfixed, rfl⟩)
  case xof => exact outputLength_eq_some_iff.2 (.inr ⟨rfl, rfl, hbounds⟩)
  case rejected => exact finishWith_of_bad_length (Phase.holdsContext_iff.2 hphase) hxof hn
  case valid => decide
  case least => exact outputLength_eq_some_iff.2 (by decide)
  case greatest => exact outputLength_eq_some_iff.2 (by decide)
  case zero => exact outputLength_eq_none rfl (by decide)
  case tooLong => exact outputLength_eq_none rfl (by decide)

/-- Settles O28: FINISH's row of the opcode map; then FINISH's three answers, by the phase and the length. The cursor starts the
squeezing at 0. -/
theorem finishEmitsTheDigest : Obligations.FinishEmitsTheDigest := by
  refine ⟨fun w hw => decode_of_matches_row (n := 5) (by decide) hw, fun n s =>
    ⟨fun hphase hidx hrate len hlen => ?accepted, fun hphase hxof hn => ?badLength, fun hphase => ?noContext⟩⟩
  case accepted =>
    have hin := s.ctx.inRange_iff.2 ⟨hidx, hrate⟩
    have hexec : exec (.finish n) s = .next (s.afterFinish len) :=
      finishWith_of_length (Phase.holdsContext_iff.2 hphase) hin (outputLength_eq_some_iff.2 hlen)
    refine ⟨_, hexec, rfl, ?emitted, ?cursor, Context.squeeze_rate .., Context.squeeze_fout .., Context.squeeze_dsfx ..⟩
    case emitted => simp [Context.squeeze_length]
    case cursor => simp [Context.squeeze_idx_toNat len (s.ctx.closeAbsorption_inRange hin)]
  case badLength => exact finishWith_of_bad_length (Phase.holdsContext_iff.2 hphase) hxof hn
  case noContext => exact finishWith_of_no_context sbcore1 n (Phase.not_holdsContext_iff.2 hphase)

/-! ### The bytes squeezed do not depend on how many are asked for (rule R65) -/

/-- Each byte is read in the context that the bytes before it left. -/
theorem Context.squeeze_bytes (n : Nat) (c : Context) :
    (c.squeeze n).1 = (List.range n).map fun j => (c.squeeze j).2.outByte := by
  induction n generalizing c with
  | zero => rfl
  | succ n ih => simp [ih, List.range_succ_eq_map, Function.comp_def]

/-- More bytes squeezed begin with the bytes of a shorter squeeze. -/
theorem Context.squeeze_bytes_prefix {n k : Nat} (h : n ≤ k) (c : Context) : (c.squeeze n).1 <+: (c.squeeze k).1 := by
  obtain ⟨d, rfl⟩ := Nat.exists_eq_add_of_le h
  simp only [Context.squeeze_bytes, List.range_add, List.map_append, List.prefix_append]

/-- From the start of a block, byte `j` squeezed is the `j`-th output byte of the lanes. -/
theorem Context.squeeze_getElem? {n j : Nat} (hj : j < n) {c : Context} (h : c.inRange = true) (hstart : c.idx = 0) :
    (c.squeeze n).1[j]? = some (outputByte c.rate.toNat c.lanes j) := by
  have hread : (c.squeeze j).2.outByte = outputByte c.rate.toNat c.lanes j := by
    rw [Context.outByte, Context.squeeze_lanes j h, Context.squeeze_idx_toNat j h, hstart]
    simp [outputByte]
  simp [Context.squeeze_bytes, hj, hread]

/-- A FINISH on an XOF context that reaches phase 3 was accepted, and `outlen` is its length. -/
theorem exec_finish_xof_accepted {n : BitVec 22} {s t : State} (hp : s.phase.holdsContext = true) (hxof : s.ctx.fout = 0)
    (h : exec (.finish n) s = .next t) (ht : t.phase = .finished) :
    s.ctx.inRange = true ∧ t = s.afterFinish n.toNat := by
  have hunfinished : s.phase ≠ .finished := fun hs => by simp [hs, Phase.holdsContext] at hp
  obtain ⟨-, rfl⟩ | ⟨-, -, rfl⟩ | ⟨-, hin, len, hlen, rfl⟩ := finishWith_next h
  · exact absurd ht hunfinished
  · exact absurd ht hunfinished
  · obtain ⟨hfixed, -⟩ | ⟨-, rfl, -⟩ := outputLength_eq_some_iff.1 hlen
    · exact absurd hxof hfixed
    · exact ⟨hin, rfl⟩

/-- Settles O30: both outputs are squeezed from the one context that steps 1 to 4 leave, with the cursor at the start of the block;
in phase 3 FINISH is rejected. -/
theorem outputIsExtendable : Obligations.OutputIsExtendable := by
  intro s t u n k hphase hxof hle hn hk ht hu
  have hp := Phase.holdsContext_iff.2 hphase
  obtain ⟨hin, rfl⟩ := exec_finish_xof_accepted hp hxof hn ht
  obtain ⟨-, rfl⟩ := exec_finish_xof_accepted hp hxof hk hu
  refine ⟨fun j hj => ?bytes, ?longer, fun n' v hv => ?noMore⟩
  case bytes =>
    rw [State.afterFinish_out, List.getElem?_append_right (Nat.le_add_right ..), Nat.add_sub_cancel_left]
    exact Context.squeeze_getElem? hj (s.ctx.closeAbsorption_inRange hin) s.ctx.closeAbsorption_idx
  case longer =>
    obtain ⟨more, hmore⟩ := Context.squeeze_bytes_prefix hle s.ctx.closeAbsorption
    refine ⟨more, by simp [← hmore], ?_⟩
    have hlength := congrArg List.length hmore
    simp only [List.length_append, Context.squeeze_length] at hlength
    omega
  case noMore =>
    have hrejected := finishWith_of_no_context sbcore1 n' (s := s.afterFinish n.toNat) rfl
    cases hv.symm.trans hrejected
    rfl

end Sys2Proof.Machine

/-!
PROOFS. The family 60_exceptions.md: the errors and their order, the lifecycle table, repeated rejections (rules R73 to R76,
R78, R80, R84), and the cores of a chip (rule R83).
-/

namespace Sys2Proof.Machine

/-! ### An ILLEGAL word and a pulse of `rst` (rules R76, R86) -/

theorem nextAction_of_pending {s : State} {a : HostAction} {rest : List HostAction} (h : s.pending = a :: rest) :
    s.nextAction = some a := by
  simp [State.nextAction, h]

theorem step_of_illegal {s : State} {w : Word32} (hw : s.nextAction = some (.word w)) (hdec : decode w = .illegal) :
    step s = .next (s.present.respond .illegalCommand) := by
  simp [step, hw, hdec, rejectIllegal, reject]

theorem step_of_reset {s : State} (h : s.nextAction = some .reset) : step s = .next s.present.hostReset := by
  simp [step, h]

/-- Settles O38: the step rejects the word in the state where the host's pointer has moved on. -/
theorem illegalWordIsRejected : Obligations.IllegalWordIsRejected := by
  refine ⟨rfl, fun s w rest hp hdec => ?_⟩
  rw [step_of_illegal (nextAction_of_pending hp) hdec]
  simp [State.present, State.respond, hp]

/-! ### The rows of the lifecycle table (rule R84) -/

theorem lifecycle_start (v : BitVec 3) (p : Phase) :
    lifecycle (.start v) p = if p = .uninitialized then some .started else none := by
  cases p <;> rfl

theorem lifecycle_update0 (p : Phase) : lifecycle .update0 p = if p.holdsContext then some p else none := by
  cases p <;> rfl

theorem lifecycle_update1 (b0 : Byte) (p : Phase) :
    lifecycle (.update1 b0) p = if p.holdsContext then some .absorbing else none := by
  cases p <;> rfl

theorem lifecycle_update2 (b0 b1 : Byte) (p : Phase) :
    lifecycle (.update2 b0 b1) p = if p.holdsContext then some .absorbing else none := by
  cases p <;> rfl

theorem lifecycle_update3 (b0 b1 b2 : Byte) (p : Phase) :
    lifecycle (.update3 b0 b1 b2) p = if p.holdsContext then some .absorbing else none := by
  cases p <;> rfl

theorem lifecycle_finish (n : BitVec 22) (p : Phase) :
    lifecycle (.finish n) p = if p.holdsContext then some .finished else none := by
  cases p <;> rfl

/-- The table has no edge for START outside phase 0, and none for the other commands outside phases 1 and 2 (rule R75). -/
theorem lifecycle_eq_none_iff {i : Instr} {p : Phase} : lifecycle i p = none ↔
    (∃ v, i = .start v) ∧ (p = .started ∨ p = .absorbing ∨ p = .finished) ∨
    (∀ v, i ≠ .start v) ∧ (p = .uninitialized ∨ p = .finished) := by
  cases i with
  | start v => cases p <;> simp [lifecycle_start]
  | update0 => simp [lifecycle_update0, Phase.not_holdsContext_iff]
  | update1 b0 => simp [lifecycle_update1, Phase.not_holdsContext_iff]
  | update2 b0 b1 => simp [lifecycle_update2, Phase.not_holdsContext_iff]
  | update3 b0 b1 b2 => simp [lifecycle_update3, Phase.not_holdsContext_iff]
  | finish n => simp [lifecycle_finish, Phase.not_holdsContext_iff]

/-! ### The first check that fails (rule R78) -/

/-- The first check that the command `i` fails in `s` is the one that raises `e`: the phase by the lifecycle table, and only
where that has an edge the operand. -/
inductive FailsWith : Instr → State → Rsp → Prop
  | phase {i : Instr} {s : State} (hedge : lifecycle i s.phase = none) : FailsWith i s .protocolViolation
  | variant {v : BitVec 3} {s : State} (hedge : lifecycle (.start v) s.phase ≠ none) (hv : variantLookup v = none) :
      FailsWith (.start v) s .invalidVariant
  | length {n : BitVec 22} {s : State} (hedge : lifecycle (.finish n) s.phase ≠ none)
      (hn : outputLength sbcore1 s.ctx.fout n = none) : FailsWith (.finish n) s .invalidOutputLength

theorem FailsWith.ne_ok {i : Instr} {s : State} {e : Rsp} (h : FailsWith i s e) : e ≠ .ok := by
  cases h <;> decide

/-- The checks look at the phase and the context only, which a response leaves as they are. -/
theorem FailsWith.respond {i : Instr} {s : State} {e : Rsp} (h : FailsWith i s e) (r : Rsp) :
    FailsWith i (s.respond r) e := by
  cases h with
  | phase hedge => exact .phase hedge
  | variant hedge hv => exact .variant hedge hv
  | length hedge hn => exact .length hedge hn

theorem exec_of_no_edge {i : Instr} {s : State} (h : lifecycle i s.phase = none) :
    exec i s = .next (s.respond .protocolViolation) := by
  cases i with
  | start v => exact exec_start_of_other_phase v (by simpa [lifecycle_start] using h)
  | update0 => exact exec_update0_of_no_context (by simpa [lifecycle_update0] using h)
  | update1 b0 => exact absorbCommand_of_no_context [b0] (by simpa [lifecycle_update1] using h)
  | update2 b0 b1 => exact absorbCommand_of_no_context [b0, b1] (by simpa [lifecycle_update2] using h)
  | update3 b0 b1 b2 => exact absorbCommand_of_no_context [b0, b1, b2] (by simpa [lifecycle_update3] using h)
  | finish n => exact finishWith_of_no_context sbcore1 n (by simpa [lifecycle_finish] using h)

theorem outputLength_eq_none_iff {cfg : Config} {fout : BitVec 7} {n : BitVec 22} :
    outputLength cfg fout n = none ↔ fout = 0 ∧ (n.toNat < cfg.outlenMin ∨ cfg.outlenMax < n.toNat) := by
  refine ⟨fun h => ?_, fun ⟨hxof, hn⟩ => outputLength_eq_none hxof hn⟩
  have hnone (len : Nat) : outputLength cfg fout n ≠ some len := by simp [h]
  have hxof : fout = 0 := by
    by_contra hfixed
    exact hnone _ (outputLength_eq_some_iff.2 (.inl ⟨hfixed, rfl⟩))
  refine ⟨hxof, ?_⟩
  by_contra hn
  exact hnone _ (outputLength_eq_some_iff.2 (.inr ⟨hxof, rfl, by omega, by omega⟩))

/-- A failed check is answered with its error, and nothing else changes. -/
theorem FailsWith.exec_eq {i : Instr} {s : State} {e : Rsp} (h : FailsWith i s e) : exec i s = .next (s.respond e) := by
  cases h with
  | phase hedge => exact exec_of_no_edge hedge
  | variant hedge hv => exact exec_start_of_no_entry (by simpa [lifecycle_start] using hedge) hv
  | length hedge hn =>
    obtain ⟨hxof, hbounds⟩ := outputLength_eq_none_iff.1 hn
    exact finishWith_of_bad_length (by simpa [lifecycle_finish] using hedge) hxof hbounds

/-- `t` is `s` after the command `i` was accepted along its edge of the lifecycle table; only FINISH emits bytes. -/
def AcceptedAlongEdge (i : Instr) (s t : State) : Prop :=
  AcceptedTo s t ∧ lifecycle i s.phase = some t.phase ∧ (t.out ≠ s.out → ∃ n, i = .finish n)

theorem absorbCommand_next_of_lifecycle {i : Instr} {bs : List Byte} {s t : State}
    (hi : lifecycle i s.phase = if s.phase.holdsContext then some .absorbing else none)
    (h : absorbCommand bs s = .next t) :
    (∃ e, FailsWith i s e ∧ t = s.respond e) ∨ AcceptedAlongEdge i s t := by
  obtain ⟨hp, rfl⟩ | ⟨hp, -, rfl⟩ := absorbCommand_next h
  · exact .inl ⟨_, .phase (by simp [hi, hp]), rfl⟩
  · exact .inr ⟨⟨_, _, _, rfl⟩, by simp [hi, hp], by simp⟩

/-- A command that answers a next state fails one check, or is accepted along its edge. -/
theorem exec_next {i : Instr} {s t : State} (h : exec i s = .next t) :
    (∃ e, FailsWith i s e ∧ t = s.respond e) ∨ AcceptedAlongEdge i s t := by
  cases i with
  | start v =>
    obtain ⟨hp, rfl⟩ | ⟨hp, hv, rfl⟩ | ⟨hp, d, -, rfl⟩ := execStart_next h
    · exact .inl ⟨_, .phase (by simp [lifecycle_start, hp]), rfl⟩
    · exact .inl ⟨_, .variant (by simp [lifecycle_start, hp]) hv, rfl⟩
    · exact .inr ⟨⟨_, _, _, rfl⟩, by simp [lifecycle_start, hp], by simp⟩
  | update0 =>
    obtain ⟨hp, rfl⟩ | ⟨hp, rfl⟩ := execUpdate0_next h
    · exact .inl ⟨_, .phase (by simp [lifecycle_update0, hp]), rfl⟩
    · exact .inr ⟨⟨_, _, _, rfl⟩, by simp [lifecycle_update0, hp], by simp⟩
  | update1 b0 => exact absorbCommand_next_of_lifecycle (lifecycle_update1 b0 s.phase) h
  | update2 b0 b1 => exact absorbCommand_next_of_lifecycle (lifecycle_update2 b0 b1 s.phase) h
  | update3 b0 b1 b2 => exact absorbCommand_next_of_lifecycle (lifecycle_update3 b0 b1 b2 s.phase) h
  | finish n =>
    obtain ⟨hp, rfl⟩ | ⟨hp, hn, rfl⟩ | ⟨hp, -, len, -, rfl⟩ := finishWith_next h
    · exact .inl ⟨_, .phase (by simp [lifecycle_finish, hp]), rfl⟩
    · exact .inl ⟨_, .length (by simp [lifecycle_finish, hp]) hn, rfl⟩
    · exact .inr ⟨⟨_, _, _, rfl⟩, by simp [lifecycle_finish, hp], fun _ => ⟨n, rfl⟩⟩

/-- The response tells which check failed. -/
theorem exec_rsps_iff {i : Instr} {s t : State} (h : exec i s = .next t) {e : Rsp} (he : e ≠ .ok) :
    t.rsps = s.rsps ++ [e] ↔ FailsWith i s e := by
  constructor
  · intro hrsps
    obtain ⟨e', hfails, rfl⟩ | ⟨hacc, -⟩ := exec_next h
    · obtain rfl : e' = e := by simpa using hrsps
      exact hfails
    · rw [hacc.rsps] at hrsps
      exact absurd (by simpa using hrsps.symm) he
  · intro hfails
    cases h.symm.trans hfails.exec_eq
    rfl

/-- Settles O39: an ILLEGAL word by its step; no edge is the first failure whatever the operand; along an edge only the two
operand checks are left. -/
theorem checkOrder : Obligations.CheckOrder := by
  refine ⟨fun s t w rest hp hdec h => ?encoding, fun i s hedge => exec_of_no_edge hedge, fun i s t hedge h => ?operand⟩
  case encoding =>
    cases h.symm.trans (step_of_illegal (nextAction_of_pending hp) hdec)
    rfl
  case operand =>
    obtain ⟨e, hfails, rfl⟩ | ⟨hacc, -⟩ := exec_next h
    · cases hfails with
      | phase hnone => exact absurd hnone hedge
      | variant => exact .inr (.inl ⟨⟨_, rfl⟩, rfl⟩)
      | length => exact .inr (.inr ⟨⟨_, rfl⟩, rfl⟩)
    · exact .inl hacc.rsps

/-- Settles O40: without an edge the phase check fails; along an edge an operand check fails or the command is accepted. The
steps of an ILLEGAL word and of a reset; bytes come out along FINISH's edge only. -/
theorem lifecycleTable : Obligations.LifecycleTable := by
  refine ⟨fun i s t h => ?cells, fun s t w rest hp hdec h => ?illegal, fun s t rest hp h => ?reset,
    fun i s t h hout => ?bytes⟩
  case cells =>
    cases hedge : lifecycle i s.phase with
    | none =>
      cases h.symm.trans (exec_of_no_edge hedge)
      rfl
    | some p =>
      obtain ⟨e, hfails, rfl⟩ | ⟨hacc, hphase, -⟩ := exec_next h
      · cases hfails with
        | phase hnone => cases hnone.symm.trans hedge
        | variant => exact .inr ⟨_, .inl rfl, rfl⟩
        | length => exact .inr ⟨_, .inr rfl, rfl⟩
      · exact .inl ⟨hacc.rsps, Option.some.inj (hphase.symm.trans hedge)⟩
  case illegal =>
    cases h.symm.trans (step_of_illegal (nextAction_of_pending hp) hdec)
    exact ⟨rfl, rfl⟩
  case reset =>
    cases h.symm.trans (step_of_reset (nextAction_of_pending hp))
    rfl
  case bytes =>
    obtain ⟨e, -, rfl⟩ | ⟨hacc, hphase, hfinish⟩ := exec_next h
    · exact absurd rfl hout
    · obtain ⟨n, rfl⟩ := hfinish hout
      rw [lifecycle_finish, Option.ite_none_right_eq_some] at hphase
      exact ⟨⟨n, rfl⟩, (Option.some.inj hphase.2).symm, hacc.rsps⟩

/-! ### The causes of the three errors (rules R73, R74, R75) -/

theorem failsWith_invalidOutputLength_iff {i : Instr} {s : State} : FailsWith i s .invalidOutputLength ↔
    (s.phase = .started ∨ s.phase = .absorbing) ∧ s.ctx.fout = 0 ∧
      ∃ n : BitVec 22, i = .finish n ∧ (n.toNat = 0 ∨ 2097152 < n.toNat) := by
  have hedge (n : BitVec 22) : lifecycle (.finish n) s.phase ≠ none ↔ s.phase = .started ∨ s.phase = .absorbing := by
    simp [lifecycle_finish, ← Phase.holdsContext_iff]
  have hlength (n : BitVec 22) : outputLength sbcore1 s.ctx.fout n = none ↔
      s.ctx.fout = 0 ∧ (n.toNat = 0 ∨ 2097152 < n.toNat) := by
    rw [outputLength_eq_none_iff, sbcore1, Nat.lt_one_iff]
  constructor
  · rintro (_ | _ | ⟨hp, hn⟩)
    obtain ⟨hxof, hbounds⟩ := (hlength _).1 hn
    exact ⟨(hedge _).1 hp, hxof, _, rfl, hbounds⟩
  · rintro ⟨hp, hxof, n, rfl, hn⟩
    exact .length ((hedge n).2 hp) ((hlength n).2 ⟨hxof, hn⟩)

theorem failsWith_invalidVariant_iff {i : Instr} {s : State} : FailsWith i s .invalidVariant ↔
    s.phase = .uninitialized ∧ ∃ v : BitVec 3, i = .start v ∧ (v = 6 ∨ v = 7) := by
  have hedge (v : BitVec 3) : lifecycle (.start v) s.phase ≠ none ↔ s.phase = .uninitialized := by
    simp [lifecycle_start]
  have hlookup : ∀ v : BitVec 3, variantLookup v = none ↔ v = 6 ∨ v = 7 := by decide
  constructor
  · rintro (_ | ⟨hp, hv⟩)
    exact ⟨(hedge _).1 hp, _, rfl, (hlookup _).1 hv⟩
  · rintro ⟨hp, v, rfl, hv⟩
    exact .variant ((hedge v).2 hp) ((hlookup v).2 hv)

theorem failsWith_protocolViolation_iff {i : Instr} {s : State} :
    FailsWith i s .protocolViolation ↔ lifecycle i s.phase = none :=
  ⟨fun | .phase hedge => hedge, .phase⟩

/-- Settles O37: the response names the check that failed, and each of the three fails for its cause only; a rejection is
`respond` alone, so after InvalidVariant the phase is still 0. -/
theorem eachErrorHasItsCause : Obligations.EachErrorHasItsCause := by
  refine fun i s t h => ⟨?length, ?variant, ?phase, fun hrsps => ?frame, fun hrsps v d hd => ?recovery⟩
  case length => exact (exec_rsps_iff h (by decide)).trans failsWith_invalidOutputLength_iff
  case variant => exact (exec_rsps_iff h (by decide)).trans failsWith_invalidVariant_iff
  case phase =>
    exact (exec_rsps_iff h (by decide)).trans (failsWith_protocolViolation_iff.trans lifecycle_eq_none_iff)
  case frame =>
    obtain ⟨e, -, rfl⟩ | hacc := exec_answers h
    · rfl
    · exact absurd hacc.rsps hrsps
  case recovery =>
    have hfails := (exec_rsps_iff h (by decide)).1 hrsps
    obtain ⟨hp, -⟩ := failsWith_invalidVariant_iff.1 hfails
    cases h.symm.trans hfails.exec_eq
    exact ⟨_, exec_start_of_entry hp hd, rfl, rfl⟩

/-! ### Rejections in a row (rule R80) -/

/-- Each command of a sequence adds one response; when none is OK, the responses are all that changed. -/
theorem execAll_next {is : List Instr} {s t : State} (h : execAll is s = .next t) :
    ∃ es, es.length = is.length ∧ t.rsps = s.rsps ++ es ∧ (.ok ∉ es → t = { s with rsps := s.rsps ++ es }) := by
  induction is generalizing s with
  | nil =>
    cases h
    exact ⟨[], rfl, by simp, by simp⟩
  | cons i is ih =>
    unfold execAll at h
    split at h
    next u hu =>
      obtain ⟨es, hlen, hrsps, hrejected⟩ := ih h
      obtain ⟨e, -, rfl⟩ | hacc := exec_answers hu
      · refine ⟨e :: es, by simp [hlen], by simp [hrsps], fun hok => ?_⟩
        rw [hrejected (List.not_mem_of_not_mem_cons hok)]
        simp [State.respond]
      · exact ⟨.ok :: es, by simp [hlen], by simp [hrsps, hacc.rsps], fun hok => absurd List.mem_cons_self hok⟩
    all_goals cases h

/-- Settles O42: a rejection leaves the phase and the context that the checks look at, so the same check fails again; a
sequence by induction. -/
theorem rejectionRepeats : Obligations.RejectionRepeats := by
  refine ⟨fun i s t e h he hrsps => ?again, fun is s t es h hrsps hok => ?row⟩
  case again =>
    have hfails := (exec_rsps_iff h he).1 hrsps
    cases h.symm.trans hfails.exec_eq
    rw [(hfails.respond e).exec_eq]
    simp [State.respond]
  case row =>
    obtain ⟨es', hlen, hrsps', hrejected⟩ := execAll_next h
    obtain rfl : es' = es := List.append_cancel_left (hrsps'.symm.trans hrsps)
    exact ⟨hrejected hok, hlen⟩

/-! ### The cores of a chip (rule R83) -/

theorem chipStep_next {k : Nat} {c c' : Chip} (h : chipStep k c = .next c') :
    ∃ s s', c.cores[k]? = some s ∧ step s = .next s' ∧ c' = { cores := c.cores.set k s' } := by
  unfold chipStep at h
  split at h
  · cases h
  next s hs =>
    split at h
    next s' hs' =>
      cases h
      exact ⟨s, s', hs, hs', rfl⟩
    all_goals cases h

theorem chipRun_cons_next {k : Nat} {ks : List Nat} {c c' : Chip} (h : chipRun (k :: ks) c = .next c') :
    ∃ d, chipStep k c = .next d ∧ chipRun ks d = .next c' := by
  unfold chipRun at h
  split at h
  next d hd => exact ⟨d, hd, h⟩
  all_goals cases h

/-- Settles O57, by induction on the turns: another core's turn leaves core `j` as it was, and a turn of its own is its
next step. -/
theorem instancesAreIndependent : Obligations.InstancesAreIndependent := by
  intro turns
  induction turns with
  | nil =>
    rintro c c' ⟨⟩
    exact ⟨rfl, fun j s hs => ⟨s, core_run_zero s, hs⟩⟩
  | cons k ks ih =>
    intro c c' h
    obtain ⟨d, hstep, hrun⟩ := chipRun_cons_next h
    obtain ⟨u, u', hu, hu', rfl⟩ := chipStep_next hstep
    obtain ⟨hlen, hcores⟩ := ih _ c' hrun
    refine ⟨by simpa using hlen, fun j s hs => ?_⟩
    by_cases hk : k = j
    case pos =>
      subst hk
      obtain rfl : u = s := Option.some.inj (hu.symm.trans hs)
      obtain ⟨hin, -⟩ := List.getElem?_eq_some_iff.1 hu
      rw [List.count_cons_self, core_run_next hu']
      exact hcores k u' (List.getElem?_set_self hin)
    case neg =>
      rw [List.count_cons_of_ne hk]
      exact hcores j s (by rwa [List.getElem?_set_ne hk])

end Sys2Proof.Machine

/-!
PROOFS. The family 70_reset_and_hazards.md: a pulse of `rst` and the phases it alone leads out of and back to (rule R86).
-/

namespace Sys2Proof.Machine

/-! ### The phases without a way out or back in the lifecycle table (rules R84, R86) -/

theorem lifecycle_finished (i : Instr) : lifecycle i .finished = none := by
  cases i <;> rfl

theorem lifecycle_ne_some_uninitialized (i : Instr) (p : Phase) : lifecycle i p ≠ some .uninitialized := by
  cases i with
  | start v => simp [lifecycle_start]
  | update0 =>
    rw [lifecycle_update0, Ne, Option.ite_none_right_eq_some]
    rintro ⟨hp, ⟨⟩⟩
    cases hp
  | update1 b0 => simp [lifecycle_update1]
  | update2 b0 b1 => simp [lifecycle_update2]
  | update3 b0 b1 b2 => simp [lifecycle_update3]
  | finish n => simp [lifecycle_finish]

/-- A command keeps the phase, or takes an edge of the table, and none leaves phase 3 or reaches phase 0. -/
theorem exec_phase {i : Instr} {s t : State} (h : exec i s = .next t) :
    t.phase = s.phase ∨ s.phase ≠ .finished ∧ t.phase ≠ .uninitialized := by
  obtain ⟨e, -, rfl⟩ | ⟨-, hedge, -⟩ := exec_next h
  · exact .inl rfl
  · refine .inr ⟨fun hfinished => ?_, fun huninitialized => ?_⟩
    · rw [hfinished, lifecycle_finished] at hedge
      cases hedge
    · exact lifecycle_ne_some_uninitialized i s.phase (hedge.trans (congrArg some huninitialized))

/-- The same of a step, unless the host's action is a pulse of `rst`. -/
theorem step_resets_or_phase {s t : State} (h : step s = .next t) :
    s.nextAction = some .reset ∨ t.phase = s.phase ∨ s.phase ≠ .finished ∧ t.phase ≠ .uninitialized := by
  obtain ⟨-, rfl⟩ | ⟨hreset, -⟩ | ⟨w, -, -, rfl⟩ | ⟨w, i, -, -, hexec⟩ := step_next h
  · exact .inr (.inl rfl)
  · exact .inl hreset
  · exact .inr (.inl rfl)
  · exact .inr (exec_phase (s := s.present) hexec)

/-- Settles O43: the pulse by its step; without one the phase is kept, or the step neither starts in phase 3 nor ends in
phase 0. -/
theorem resetPulse : Obligations.ResetPulse := by
  refine ⟨fun s rest hp => ?pulse, fun s t h => ?only, rfl⟩
  case pulse => exact ⟨_, step_of_reset (nextAction_of_pending hp), rfl, rfl, rfl⟩
  case only =>
    obtain hreset | hkept | ⟨hstart, hend⟩ := step_resets_or_phase h
    · exact ⟨fun _ _ => pending_of_nextAction hreset, fun _ _ => pending_of_nextAction hreset⟩
    · exact ⟨fun hs ht => absurd (hkept.trans hs) ht, fun hs ht => absurd (hkept.symm.trans ht) hs⟩
    · exact ⟨fun hs _ => absurd hs hstart, fun _ ht => absurd ht hend⟩

end Sys2Proof.Machine

/-!
PROOFS. The family of statements on the whole model, the encoding: decoding and encoding undo each other, and the reasons of
rule R37 (30_encoding.md).
-/

namespace Sys2Proof

/-! ### Decoding and encoding undo each other (rules R32 to R36) -/

theorem decode_encode_start (v : BitVec 3) : decode (encode (.start v)) = .command (.start v) := by
  have hw := encode_start_toNat v
  obtain ⟨-, -, hv⟩ := fields_of_three_parts (1 : BitVec 4) (0 : BitVec 25) v
  rw [decode_by_upper_part, if_pos (by omega)]
  exact congrArg (Decoded.command ∘ Instr.start) hv

theorem decode_encode_update1 (b0 : Byte) : decode (encode (.update1 b0)) = .command (.update1 b0) := by
  have hw := encode_update1_toNat b0
  obtain ⟨-, -, -, -, -, h0⟩ := fields_formatU 2 1 0 0 0 b0
  rw [decode_by_upper_part, if_neg (by omega), if_neg (by omega), if_pos (by omega)]
  exact congrArg (Decoded.command ∘ Instr.update1) h0

theorem decode_encode_update2 (b0 b1 : Byte) : decode (encode (.update2 b0 b1)) = .command (.update2 b0 b1) := by
  have hw := encode_update2_toNat b0 b1
  obtain ⟨-, -, -, -, h1, h0⟩ := fields_formatU 2 2 0 0 b1 b0
  rw [decode_by_upper_part, if_neg (by omega), if_neg (by omega), if_neg (by omega), if_pos (by omega)]
  exact congrArg Decoded.command (congrArg₂ Instr.update2 h0 h1)

theorem decode_encode_update3 (b0 b1 b2 : Byte) :
    decode (encode (.update3 b0 b1 b2)) = .command (.update3 b0 b1 b2) := by
  have hw := encode_update3_toNat b0 b1 b2
  obtain ⟨-, -, -, h2, h1, h0⟩ := fields_formatU 2 3 0 b2 b1 b0
  rw [decode_by_upper_part, if_neg (by omega), if_neg (by omega), if_neg (by omega), if_neg (by omega),
    if_pos (by omega)]
  exact congrArg Decoded.command (congr (congrArg₂ Instr.update3 h0 h1) h2)

theorem decode_encode_finish (n : BitVec 22) : decode (encode (.finish n)) = .command (.finish n) := by
  have hw := encode_finish_toNat n
  obtain ⟨-, -, hn⟩ := fields_of_three_parts (3 : BitVec 4) (0 : BitVec 6) n
  rw [decode_by_upper_part, if_neg (by omega), if_neg (by omega), if_neg (by omega), if_neg (by omega),
    if_neg (by omega), if_pos (by omega)]
  exact congrArg (Decoded.command ∘ Instr.finish) hn

/-- Settles O1: each command's word has its row's upper part, and below it the operands. -/
theorem decodeOfEncode : Obligations.DecodeOfEncode := by
  intro i
  cases i with
  | start v => exact decode_encode_start v
  | update0 => exact decode_eq_update0_iff.2 rfl
  | update1 b0 => exact decode_encode_update1 b0
  | update2 b0 b1 => exact decode_encode_update2 b0 b1
  | update3 b0 b1 b2 => exact decode_encode_update3 b0 b1 b2
  | finish n => exact decode_encode_finish n

/-- Settles O2: the upper part that the decoder tested and the operands that it read make up the whole word. -/
theorem encodeOfDecode : Obligations.EncodeOfDecode := by
  intro w i h
  apply BitVec.eq_of_toNat_eq
  rw [decode_by_upper_part] at h
  split_ifs at h with hstart h0 h1 h2 h3 hfinish
  · cases h
    rw [encode_start_toNat, variantOperand, field_toNat]
    omega
  · cases h
    rw [encode_update0_toNat, h0]
  · cases h
    rw [encode_update1_toNat, b0Operand, field_toNat]
    omega
  · cases h
    rw [encode_update2_toNat, b0Operand, b1Operand, field_toNat, field_toNat]
    omega
  · cases h
    rw [encode_update3_toNat, b0Operand, b1Operand, b2Operand, field_toNat, field_toNat, field_toNat]
    omega
  · cases h
    rw [encode_finish_toNat, outlenOperand, field_toNat]
    omega

/-! ### The reasons of rule R37 -/

/-- The tests of the opcode map on the upper part of a word's number. -/
theorem decode_eq_illegal_iff {w : Word32} : decode w = .illegal ↔
    w.toNat / 8 ≠ 0x2000000 ∧ w.toNat ≠ 0x20000000 ∧ w.toNat / 256 ≠ 0x240000 ∧ w.toNat / 65536 ≠ 0x2800 ∧
    w.toNat / 16777216 ≠ 0x2C ∧ w.toNat / 4194304 ≠ 0xC0 := by
  rw [decode_by_upper_part]
  split_ifs <;> simp [*]

/-- The reasons of rule R37 for a word to be ILLEGAL, as the rule lists them. -/
def HasIllegalReason (w : Word32) : Prop :=
  (opField w ≠ 1 ∧ opField w ≠ 2 ∧ opField w ≠ 3) ∨
  (opField w = 1 ∧ w.extractLsb' 3 25 ≠ 0) ∨
  (opField w = 2 ∧ w.extractLsb' 24 2 ≠ 0) ∨
  (opField w = 2 ∧
    (((cntField w).toNat ≤ 0 ∧ w.extractLsb' 0 8 ≠ 0) ∨
     ((cntField w).toNat ≤ 1 ∧ w.extractLsb' 8 8 ≠ 0) ∨
     ((cntField w).toNat ≤ 2 ∧ w.extractLsb' 16 8 ≠ 0))) ∨
  (opField w = 3 ∧ w.extractLsb' 22 6 ≠ 0)

theorem field_eq_iff (w : Word32) (lo len : Nat) (c : BitVec len) :
    w.extractLsb' lo len = c ↔ w.toNat / 2 ^ lo % 2 ^ len = c.toNat := by
  rw [← BitVec.toNat_inj, field_toNat]

theorem field_eq_zero_iff (w : Word32) (lo len : Nat) :
    w.extractLsb' lo len = 0 ↔ w.toNat / 2 ^ lo % 2 ^ len = 0 :=
  field_eq_iff w lo len 0

theorem unusedBytesZero_eq_false_iff {w : Word32} (hop : opField w = 2) : unusedBytesZero w = false ↔
    ((cntField w).toNat ≤ 0 ∧ w.extractLsb' 0 8 ≠ 0) ∨ ((cntField w).toNat ≤ 1 ∧ w.extractLsb' 8 8 ≠ 0) ∨
    ((cntField w).toNat ≤ 2 ∧ w.extractLsb' 16 8 ≠ 0) := by
  rw [unusedBytesZero, if_pos hop]
  simp only [Bool.and_eq_false_iff, Bool.or_eq_false_iff, decide_eq_false_iff_not, Nat.not_le, Nat.lt_succ_iff,
    beq_eq_false_iff_ne, or_assoc]

theorem wordWellFormed_eq_false_iff {w : Word32} : wordWellFormed w = false ↔ HasIllegalReason w := by
  by_cases h1 : opField w = 1
  · simp [wordWellFormed, opIsCommand, reservedBitsZero, unusedBytesZero, HasIllegalReason, h1]
  by_cases h2 : opField w = 2
  · rw [wordWellFormed, Bool.and_eq_false_iff, unusedBytesZero_eq_false_iff h2]
    simp [opIsCommand, reservedBitsZero, HasIllegalReason, h2]
  by_cases h3 : opField w = 3
  · simp [wordWellFormed, opIsCommand, reservedBitsZero, unusedBytesZero, HasIllegalReason, h3]
  · have hop : opIsCommand w = false := by
      simp only [opIsCommand, beq_false_of_ne h1, beq_false_of_ne h2, beq_false_of_ne h3, Bool.or_self]
    exact iff_of_true (by rw [wordWellFormed, hop]; rfl) (.inl ⟨h1, h2, h3⟩)

theorem upperPart_of_formatS {w : Word32} (hop : opField w = 1) (hz : w.extractLsb' 3 25 = 0) :
    w.toNat / 8 = 0x2000000 := by
  have hw : w.toNat < 2 ^ 32 := w.isLt
  have hop : w.toNat / 2 ^ 28 % 2 ^ 4 = 1 := (field_eq_iff ..).1 hop
  have hz : w.toNat / 2 ^ 3 % 2 ^ 25 = 0 := (field_eq_zero_iff ..).1 hz
  omega

/-- The byte fields at position `cnt` or above are 0, so the word's number is one of the four. -/
theorem upperPart_of_formatU {w : Word32} (hop : opField w = 2) (hz : w.extractLsb' 24 2 = 0)
    (hunused : unusedBytesZero w ≠ false) : w.toNat = 0x20000000 ∨ w.toNat / 256 = 0x240000 ∨
      w.toNat / 65536 = 0x2800 ∨ w.toNat / 16777216 = 0x2C := by
  rw [Ne, unusedBytesZero_eq_false_iff hop] at hunused
  simp only [not_or, not_and, not_not, field_eq_zero_iff, field_toNat] at hunused
  obtain ⟨hb0, hb1, hb2⟩ := hunused
  have hw : w.toNat < 2 ^ 32 := w.isLt
  have hop : w.toNat / 2 ^ 28 % 2 ^ 4 = 2 := (field_eq_iff ..).1 hop
  have hz : w.toNat / 2 ^ 24 % 2 ^ 2 = 0 := (field_eq_zero_iff ..).1 hz
  omega

theorem upperPart_of_formatF {w : Word32} (hop : opField w = 3) (hz : w.extractLsb' 22 6 = 0) :
    w.toNat / 4194304 = 0xC0 := by
  have hw : w.toNat < 2 ^ 32 := w.isLt
  have hop : w.toNat / 2 ^ 28 % 2 ^ 4 = 3 := (field_eq_iff ..).1 hop
  have hz : w.toNat / 2 ^ 22 % 2 ^ 6 = 0 := (field_eq_zero_iff ..).1 hz
  omega

/-- A word without a reason has the upper part of the row that its `op` and `cnt` point to. -/
theorem hasIllegalReason_of_decode {w : Word32} (h : decode w = .illegal) : HasIllegalReason w := by
  obtain ⟨hstart, h0, h1, h2, h3, hfinish⟩ := decode_eq_illegal_iff.1 h
  by_cases hop1 : opField w = 1
  · exact .inr (.inl ⟨hop1, fun hz => hstart (upperPart_of_formatS hop1 hz)⟩)
  by_cases hop2 : opField w = 2
  · by_cases hz : w.extractLsb' 24 2 = 0
    · have hunused : unusedBytesZero w = false := by
        by_contra hunused
        obtain hw | hw | hw | hw := upperPart_of_formatU hop2 hz hunused <;> contradiction
      exact .inr (.inr (.inr (.inl ⟨hop2, (unusedBytesZero_eq_false_iff hop2).1 hunused⟩)))
    · exact .inr (.inr (.inl ⟨hop2, hz⟩))
  by_cases hop3 : opField w = 3
  · exact .inr (.inr (.inr (.inr ⟨hop3, fun hz => hfinish (upperPart_of_formatF hop3 hz)⟩)))
  · exact .inl ⟨hop1, hop2, hop3⟩

/-- The encoder's words are well formed, and a word that decodes to a command is one of them. -/
theorem wordWellFormed_of_decode {w : Word32} {i : Instr} (h : decode w = .command i) : wordWellFormed w = true := by
  obtain rfl := encodeOfDecode w i h
  cases i with
  | start v => exact Laws.EncodeWellFormed.start v
  | update0 => exact Laws.EncodeWellFormed.update0
  | update1 b0 => exact Laws.EncodeWellFormed.update1 b0
  | update2 b0 b1 => exact Laws.EncodeWellFormed.update2 b0 b1
  | update3 b0 b1 b2 => exact Laws.EncodeWellFormed.update3 b0 b1 b2
  | finish n => exact Laws.EncodeWellFormed.finish n

/-- Settles O5: a word of no row has a reason, a word with a reason is not well formed, and the word of a command is. -/
theorem illegalWordsAreThoseOfTheRule : Obligations.IllegalWordsAreThoseOfTheRule := by
  intro w
  have hillegal : decode w = .illegal ↔ HasIllegalReason w := by
    refine ⟨hasIllegalReason_of_decode, fun hreason => ?_⟩
    cases hdec : decode w with
    | illegal => rfl
    | command i =>
      have hgood := wordWellFormed_of_decode hdec
      rw [wordWellFormed_eq_false_iff.2 hreason] at hgood
      cases hgood
  exact ⟨hillegal, hillegal.trans wordWellFormed_eq_false_iff.symm⟩

/-- Settles O6: the eight words that decode to commands, then the seven that do not. -/
theorem specWordsDecode : Obligations.SpecWordsDecode :=
  ⟨rfl, rfl, rfl, rfl, rfl, rfl, rfl, rfl, rfl, rfl, rfl, rfl, rfl, rfl, rfl⟩

end Sys2Proof

/-!
PROOFS. The family of statements on the whole model, the machine: the invariant, the completion of every step, the host's
part of a step, and what phase 0 hides (10_state.md, 70_reset_and_hazards.md).
-/

namespace Sys2Proof.Machine

/-! ### The invariant (rules R17, R18, R84) -/

theorem State.Inv.respond {s : State} (h : s.Inv) (r : Rsp) : (s.respond r).Inv := h

theorem State.Inv.present {s : State} (h : s.Inv) : s.present.Inv := h

theorem State.inv_of_uninitialized {s : State} (hp : s.phase = .uninitialized) (hout : s.out = []) : s.Inv :=
  ⟨fun hne => absurd hp hne, fun hs => by simp [hp] at hs, fun _ => hout, fun hf => by simp [hp] at hf⟩

theorem State.Inv.out_eq_nil {s : State} (h : s.Inv) (hp : s.phase ≠ .finished) : s.out = [] := h.2.2.1 hp

/-- A context in use lies in the rate region, and that in the state-byte space. -/
theorem State.Inv.inRange {s : State} (h : s.Inv) (hp : s.phase ≠ .uninitialized) : s.ctx.inRange = true := by
  obtain ⟨⟨d, hd, hrate, -⟩, hidx⟩ := h.1 hp
  obtain ⟨-, hhigh, -⟩ := vrom_rate_bounds d hd
  exact s.ctx.inRange_iff.2 ⟨hidx, by rw [hrate]; omega⟩

theorem Context.Bound.of_sameParameters {c c' : Context} (h : c.Bound) (hsame : c.SameParameters c') : c'.Bound := by
  obtain ⟨d, hd, hrate, hfout, hdsfx⟩ := h
  obtain ⟨hrate', hfout', hdsfx'⟩ := hsame
  exact ⟨d, hd, hrate'.trans hrate, hfout'.trans hfout, hdsfx'.trans hdsfx⟩

theorem Phase.ne_of_holdsContext {p : Phase} (hp : p.holdsContext = true) : p ≠ .uninitialized ∧ p ≠ .finished := by
  obtain rfl | rfl := Phase.holdsContext_iff.1 hp <;> decide

theorem execStart_keeps_inv {v : BitVec 3} {s t : State} (hinv : s.Inv) (h : execStart v s = .next t) : t.Inv := by
  obtain ⟨-, rfl⟩ | ⟨-, -, rfl⟩ | ⟨hp, d, hd, rfl⟩ := execStart_next h
  · exact hinv.respond _
  · exact hinv.respond _
  · have hmem := mem_vrom_of_variantLookup hd
    obtain ⟨hidx, -⟩ := (Context.bind d).inRange_iff.1 (Context.bind_inRange hmem)
    have hout := hinv.out_eq_nil (by simp [hp])
    exact ⟨fun _ => ⟨⟨d, hmem, rfl, rfl, rfl⟩, hidx⟩, fun _ => ⟨rfl, rfl⟩, fun _ => by simp [hout], nofun⟩

theorem execUpdate0_keeps_inv {s t : State} (hinv : s.Inv) (h : exec .update0 s = .next t) : t.Inv := by
  cases hp : s.phase.holdsContext with
  | true =>
    cases h.symm.trans (exec_update0_of_context hp)
    exact hinv.respond _
  | false =>
    cases h.symm.trans (exec_update0_of_no_context hp)
    exact hinv.respond _

/-- In phase 2 the invariant asks for less than in phase 1, and absorbing keeps the cursor in the rate region. -/
theorem absorbCommand_keeps_inv {bs : List Byte} {s t : State} (hinv : s.Inv) (h : absorbCommand bs s = .next t) :
    t.Inv := by
  have hsame := absorbCommand_keeps_parameters h
  obtain ⟨-, rfl⟩ | ⟨hp, hin, rfl⟩ := absorbCommand_next h
  · exact hinv.respond _
  · obtain ⟨hbegun, hunfinished⟩ := Phase.ne_of_holdsContext hp
    obtain ⟨hbound, -⟩ := hinv.1 hbegun
    obtain ⟨hidx, -⟩ := (Context.inRange_iff _).1 (s.ctx.absorbBytes_inRange bs hin)
    have hout := hinv.out_eq_nil hunfinished
    exact ⟨fun _ => ⟨hbound.of_sameParameters hsame, hidx⟩, nofun, fun _ => by simp [hout], nofun⟩

/-- The digest that FINISH emitted onto an empty `OUT` has the length of rule R64, and the cursor started at 0. -/
theorem State.afterFinish_digestOut {s : State} {n : BitVec 22} {len : Nat} (hout : s.out = []) (hin : s.ctx.inRange = true)
    (hlen : outputLength sbcore1 s.ctx.fout n = some len) : (s.afterFinish len).DigestOut := by
  have hlength : (s.afterFinish len).out.length = len := by simp [hout, Context.squeeze_length]
  have hidx := Context.squeeze_idx_toNat len (s.ctx.closeAbsorption_inRange hin)
  unfold State.DigestOut
  rw [hlength, State.afterFinish_ctx, Context.squeeze_fout, Context.squeeze_rate, hidx]
  obtain ⟨hfixed, rfl⟩ | ⟨hxof, rfl, hbounds⟩ := outputLength_eq_some_iff.1 hlen
  · exact ⟨fun _ => rfl, fun hxof => absurd hxof hfixed, by simp⟩
  · exact ⟨fun hfixed => absurd hxof hfixed, fun _ => hbounds, by simp⟩

theorem execFinish_keeps_inv {n : BitVec 22} {s t : State} (hinv : s.Inv) (h : execFinish n s = .next t) : t.Inv := by
  have hsame := finishWith_keeps_parameters h
  obtain ⟨-, rfl⟩ | ⟨-, -, rfl⟩ | ⟨hp, hin, len, hlen, rfl⟩ := finishWith_next h
  · exact hinv.respond _
  · exact hinv.respond _
  · obtain ⟨hbegun, hunfinished⟩ := Phase.ne_of_holdsContext hp
    obtain ⟨hbound, -⟩ := hinv.1 hbegun
    have hout := hinv.out_eq_nil hunfinished
    have hdigest := State.afterFinish_digestOut hout hin hlen
    have hidx : (s.afterFinish len).ctx.idx.toNat < (s.afterFinish len).ctx.rate.toNat := by
      have ⟨_, _, hcursor⟩ := hdigest
      have ⟨hbelow, _⟩ := s.ctx.inRange_iff.1 hin
      rw [hcursor]
      exact Nat.mod_lt _ (by simp; omega)
    exact ⟨fun _ => ⟨hbound.of_sameParameters hsame, hidx⟩, nofun, fun hne => absurd rfl hne,
      fun _ => hdigest⟩

theorem exec_keeps_inv {i : Instr} {s t : State} (hinv : s.Inv) (h : exec i s = .next t) : t.Inv := by
  cases i with
  | start v => exact execStart_keeps_inv hinv h
  | update0 => exact execUpdate0_keeps_inv hinv h
  | update1 b0 => exact absorbCommand_keeps_inv hinv h
  | update2 b0 b1 => exact absorbCommand_keeps_inv hinv h
  | update3 b0 b1 b2 => exact absorbCommand_keeps_inv hinv h
  | finish n => exact execFinish_keeps_inv hinv h

/-- Settles O46: the reset state is in phase 0 with nothing emitted. -/
theorem invariantAtReset : Obligations.InvariantAtReset := State.inv_of_uninitialized rfl rfl

/-- Settles O47: waiting and rejecting leave phase, context and output; a pulse leaves phase 0; each command by its meaning. -/
theorem invariantKeptByEveryStep : Obligations.InvariantKeptByEveryStep := by
  intro s t hinv h
  obtain ⟨-, rfl⟩ | ⟨-, rfl⟩ | ⟨w, -, -, rfl⟩ | ⟨w, i, -, -, hexec⟩ := step_next h
  · exact hinv
  · exact State.inv_of_uninitialized rfl rfl
  · exact hinv.present.respond _
  · exact exec_keeps_inv hinv.present hexec

/-! ### Every step completes (rule R7) -/

theorem execStart_completes (v : BitVec 3) (s : State) : ∃ t, exec (.start v) s = .next t := by
  by_cases hp : s.phase = .uninitialized
  · cases hd : variantLookup v with
    | none => exact ⟨_, exec_start_of_no_entry hp hd⟩
    | some d => exact ⟨_, exec_start_of_entry hp hd⟩
  · exact ⟨_, exec_start_of_other_phase v hp⟩

/-- FINISH with a context in use completes when the cursor is in range: with a good length, or by its rejection. -/
theorem execFinish_completes {n : BitVec 22} {s : State} (hp : s.phase.holdsContext = true) (hin : s.ctx.inRange = true) :
    ∃ t, exec (.finish n) s = .next t := by
  cases hlen : outputLength sbcore1 s.ctx.fout n with
  | some len => exact ⟨_, finishWith_of_length hp hin hlen⟩
  | none =>
    obtain ⟨hxof, hbounds⟩ := outputLength_eq_none_iff.1 hlen
    exact ⟨_, finishWith_of_bad_length hp hxof hbounds⟩

/-- A command completes unless it would work on a context whose cursor is out of range. -/
theorem exec_completes {i : Instr} {s : State} (hin : s.phase.holdsContext = true → s.ctx.inRange = true) :
    ∃ t, exec i s = .next t := by
  cases hp : s.phase.holdsContext with
  | true =>
    cases i with
    | start v => exact execStart_completes v s
    | update0 => exact ⟨_, exec_of_updateBytes rfl hp (hin hp)⟩
    | update1 b0 => exact ⟨_, exec_of_updateBytes rfl hp (hin hp)⟩
    | update2 b0 b1 => exact ⟨_, exec_of_updateBytes rfl hp (hin hp)⟩
    | update3 b0 b1 b2 => exact ⟨_, exec_of_updateBytes rfl hp (hin hp)⟩
    | finish n => exact execFinish_completes hp (hin hp)
  | false =>
    cases i with
    | start v => exact execStart_completes v s
    | update0 => exact ⟨_, exec_update0_of_no_context hp⟩
    | update1 b0 => exact ⟨_, absorbCommand_of_no_context [b0] hp⟩
    | update2 b0 b1 => exact ⟨_, absorbCommand_of_no_context [b0, b1] hp⟩
    | update3 b0 b1 b2 => exact ⟨_, absorbCommand_of_no_context [b0, b1, b2] hp⟩
    | finish n => exact ⟨_, finishWith_of_no_context sbcore1 n hp⟩

theorem step_of_command {s : State} {w : Word32} {i : Instr} (hw : s.nextAction = some (.word w))
    (hdec : decode w = .command i) : step s = exec i s.present := by
  simp [step, hw, hdec]

theorem step_of_none {s : State} (h : s.nextAction = none) : step s = .next s := by
  simp [step, h]

/-- Settles O48: with the invariant the cursor of a context in use is in range, so the command completes. -/
theorem everyStepCompletes : Obligations.EveryStepCompletes := by
  intro s hinv
  cases ha : s.nextAction with
  | none => exact ⟨_, step_of_none ha⟩
  | some a =>
    cases a with
    | reset => exact ⟨_, step_of_reset ha⟩
    | word w =>
      cases hdec : decode w with
      | illegal => exact ⟨_, step_of_illegal ha hdec⟩
      | command i =>
        rw [step_of_command ha hdec]
        exact exec_completes fun hp => hinv.inRange (Phase.ne_of_holdsContext hp).1

/-! ### The host's part of a step (rules R19, R71) -/

/-- Settles O44: the fields of the reset state. -/
theorem powerOnPhase : Obligations.PowerOnPhase := ⟨rfl, rfl, rfl⟩

theorem present_of_pending {s : State} {a : HostAction} {rest : List HostAction} (h : s.pending = a :: rest) :
    s.present = { s with pending := rest, cp := s.cp + 1 } := by
  simp [State.present, h]

theorem decode_tableWord_of_decodeTableWord {w : Nat} {i : Instr} (h : decodeTableWord 32 w = some i) :
    decode (tableWord 32 w) = .command i := by
  unfold decodeTableWord at h
  split at h
  · rename_i j hj
    cases h
    exact hj
  · cases h

/-- Settles O49: the step's arm for a word, for a word put in front by `withFetchWord`, and for no action. -/
theorem stepRunsTheDecodedCommand : Obligations.StepRunsTheDecodedCommand := by
  refine ⟨fun s w i rest hp hdec => ?word, fun s w i hdec => ?fetched, fun s hp => ?waits⟩
  case word => rw [step_of_command (nextAction_of_pending hp) hdec, present_of_pending hp]
  case fetched => exact step_of_command rfl (decode_tableWord_of_decodeTableWord hdec)
  case waits => exact step_of_none (by simp [State.nextAction, hp])

/-- What every answer to a command leaves of the host's part, and its one response. -/
theorem answers_keep_host {s t : State} (h : RejectedTo s t ∨ AcceptedTo s t) :
    t.pending = s.pending ∧ t.cp = s.cp ∧ t.resets = s.resets ∧ ∃ r, t.rsps = s.rsps ++ [r] := by
  obtain ⟨e, -, rfl⟩ | ⟨p, c, bytes, rfl⟩ := h
  · exact ⟨rfl, rfl, rfl, e, rfl⟩
  · exact ⟨rfl, rfl, rfl, .ok, rfl⟩

/-- Settles O50: a word is answered in the state where the host's pointer has moved on; a pulse moves it too and gives no
response. -/
theorem oneResponsePerWord : Obligations.OneResponsePerWord := by
  intro s t x rest hp h
  cases x with
  | word w =>
    obtain ⟨hpending, hcp, -, hrsps⟩ := answers_keep_host (step_word_answers (nextAction_of_pending hp) h)
    exact ⟨by simp [hpending, hp], hcp, hrsps⟩
  | reset =>
    cases h.symm.trans (step_of_reset (nextAction_of_pending hp))
    exact ⟨by simp [hp], rfl, rfl⟩

/-! ### What phase 0 hides (rule R87) -/

/-- Two states of which a host sees the same, now and later: equal, or in phase 0 and different in the context only. -/
def AlikeInPhaseZero (s t : State) : Prop := t = s ∨ s.phase = .uninitialized ∧ ∃ c, t = { s with ctx := c }

theorem AlikeInPhaseZero.refl (s : State) : AlikeInPhaseZero s s := .inl rfl

/-- In phase 0 no command looks at the context, and the one that is accepted writes all of it. -/
theorem exec_hides_context {s : State} (hp : s.phase = .uninitialized) (c : Context) (i : Instr) :
    ∃ t u, exec i s = .next t ∧ exec i { s with ctx := c } = .next u ∧ AlikeInPhaseZero t u := by
  by_cases hedge : lifecycle i s.phase = none
  · exact ⟨_, _, exec_of_no_edge hedge, exec_of_no_edge hedge, .inr ⟨hp, c, rfl⟩⟩
  · obtain ⟨v, rfl⟩ : ∃ v, i = .start v := by
      by_contra hnot
      exact hedge (lifecycle_eq_none_iff.2 (.inr ⟨fun v hv => hnot ⟨v, hv⟩, .inl hp⟩))
    cases hd : variantLookup v with
    | none => exact ⟨_, _, exec_start_of_no_entry hp hd, exec_start_of_no_entry hp hd, .inr ⟨hp, c, rfl⟩⟩
    | some d => exact ⟨_, _, exec_start_of_entry hp hd, exec_start_of_entry hp hd, .inl rfl⟩

/-- The same of a step; after a pulse the context is chosen by the number of the pulse, which is the same in both. -/
theorem step_hides_context {s : State} (hp : s.phase = .uninitialized) (c : Context) :
    ∃ t u, step s = .next t ∧ step { s with ctx := c } = .next u ∧ AlikeInPhaseZero t u := by
  cases ha : s.nextAction with
  | none => exact ⟨_, _, step_of_none ha, step_of_none ha, .inr ⟨hp, c, rfl⟩⟩
  | some a =>
    cases a with
    | reset => exact ⟨_, _, step_of_reset ha, step_of_reset ha, .inl rfl⟩
    | word w =>
      cases hdec : decode w with
      | illegal => exact ⟨_, _, step_of_illegal ha hdec, step_of_illegal ha hdec, .inr ⟨hp, c, rfl⟩⟩
      | command i =>
        rw [step_of_command ha hdec, step_of_command (s := { s with ctx := c }) ha hdec]
        exact exec_hides_context (s := s.present) hp c i

theorem SameToTheHost.refl (o : Host.Outcome State Fault Refusal) : SameToTheHost o o := by
  cases o with
  | next t => exact ⟨rfl, rfl, rfl, rfl, rfl, fun _ => rfl⟩
  | fault f => exact rfl
  | refused r => exact rfl

theorem core_run_alike (n : Nat) {s t : State} (h : AlikeInPhaseZero s t) : SameToTheHost (core.run n s) (core.run n t) := by
  induction n generalizing s t with
  | zero =>
    rw [core_run_zero, core_run_zero]
    obtain rfl | ⟨hp, c, rfl⟩ := h
    · exact .refl _
    · exact ⟨rfl, rfl, rfl, rfl, rfl, fun hne => absurd hp hne⟩
  | succ n ih =>
    obtain rfl | ⟨hp, c, rfl⟩ := h
    · exact .refl _
    · obtain ⟨s', t', hs, ht, halike⟩ := step_hides_context hp c
      rw [core_run_next hs, core_run_next ht]
      exact ih halike

/-- Settles O45: the two runs stay alike step by step. -/
theorem resetContentsUnobservable : Obligations.ResetContentsUnobservable :=
  fun n _ c hp => core_run_alike n (.inr ⟨hp, c, rfl⟩)

end Sys2Proof.Machine

/-!
PROOFS. The family of statements on the whole model, inside a command: the finer model of rule R91 agrees with the machine, a
stalling host changes nothing, and what the ports show (rules R30, R89, R91).
-/

namespace Sys2Proof.Machine

/-! ### Runs of micro steps -/

theorem Micro.run_cons_of_next {r : Bool} {rs : List Bool} {m m' : Micro} (h : m.tick r = .next m') :
    Micro.run (r :: rs) m = Micro.run rs m' := by
  simp [Micro.run, h]

theorem Micro.run_append_of_next {rs rs' : List Bool} {m m' : Micro} (h : Micro.run rs m = .next m') :
    Micro.run (rs ++ rs') m = Micro.run rs' m' := by
  induction rs generalizing m with
  | nil => cases h; rfl
  | cons r rs ih =>
    unfold Micro.run at h
    split at h
    next m₁ hm₁ => rw [List.cons_append, Micro.run_cons_of_next hm₁, ih h]
    all_goals cases h

/-- Micro steps lead from the one to the other with a host that takes every byte. -/
def Micro.Reaches (m m' : Micro) : Prop := ∃ n, Micro.run (List.replicate n true) m = .next m'

theorem Micro.Reaches.refl (m : Micro) : m.Reaches m := ⟨0, rfl⟩

theorem Micro.Reaches.trans {m m₁ m₂ : Micro} (h₁ : m.Reaches m₁) (h₂ : m₁.Reaches m₂) : m.Reaches m₂ := by
  obtain ⟨k, hk⟩ := h₁
  obtain ⟨l, hl⟩ := h₂
  exact ⟨k + l, by rw [List.replicate_add, Micro.run_append_of_next hk, hl]⟩

theorem Micro.Reaches.of_tick {m m' : Micro} (h : m.tick true = .next m') : m.Reaches m' :=
  ⟨1, Micro.run_cons_of_next h⟩

/-- A first micro step, and the rest. -/
theorem Micro.Reaches.head {m m₁ m₂ : Micro} (h₁ : m.tick true = .next m₁) (h₂ : m₁.Reaches m₂) :
    m.Reaches m₂ :=
  (Micro.Reaches.of_tick h₁).trans h₂

/-! ### The permutation, one round per micro step (rule R47) -/

theorem Micro.tick_of_round {m : Micro} {ir : Fin 24} (h : m.rnd = some ir) (r : Bool) : m.tick r =
    .next { m.withContext { m.core.ctx with lanes := keccakRound m.core.ctx.lanes ir } with rnd := nextRound ir } := by
  simp [Micro.tick, h]

/-- The lanes after the first `k` rounds. -/
def lanesAfterRounds (a : Lanes) (k : Nat) : Lanes := ((List.finRange 24).take k).foldl keccakRound a

theorem lanesAfterRounds_succ (a : Lanes) {k : Nat} (hk : k < 24) :
    lanesAfterRounds a (k + 1) = keccakRound (lanesAfterRounds a k) ⟨k, hk⟩ := by
  simp [lanesAfterRounds, List.take_add_one, hk]

theorem lanesAfterRounds_all (a : Lanes) : lanesAfterRounds a 24 = keccakF a := by
  rw [keccakF, lanesAfterRounds, List.take_of_length_le (by simp)]

/-- Where a permutation that runs in `m` stands before round `k`, and at its end for `k` = 24. -/
def Micro.beforeRound (m : Micro) (k : Nat) : Micro :=
  { m.withContext { m.core.ctx with lanes := lanesAfterRounds m.core.ctx.lanes k } with
    rnd := if hk : k < 24 then some ⟨k, hk⟩ else none }

theorem Micro.beforeRound_zero {m : Micro} (h : m.rnd = some 0) : m.beforeRound 0 = m := by
  obtain ⟨core, activity, rnd, outrem⟩ := m
  cases h
  rfl

theorem Micro.tick_beforeRound (m : Micro) {k : Nat} (hk : k < 24) (r : Bool) :
    (m.beforeRound k).tick r = .next (m.beforeRound (k + 1)) := by
  have hrnd : (m.beforeRound k).rnd = some ⟨k, hk⟩ := dif_pos hk
  rw [Micro.tick_of_round hrnd, Micro.beforeRound, Micro.beforeRound, lanesAfterRounds_succ _ hk]
  rfl

/-- The end of a permutation: the lanes permuted, the rest as it was. -/
def Micro.permuted (m : Micro) : Micro := { m.withContext m.core.ctx.permute with rnd := none }

theorem Micro.beforeRound_end (m : Micro) : m.beforeRound 24 = m.permuted := by
  rw [Micro.beforeRound, lanesAfterRounds_all]
  rfl

theorem Micro.reaches_permuted {m : Micro} (h : m.rnd = some 0) : m.Reaches m.permuted := by
  have hrounds : ∀ k ≤ 24, m.Reaches (m.beforeRound k) := by
    intro k hk
    induction k with
    | zero => rw [Micro.beforeRound_zero h]; exact .refl m
    | succ k ih => exact (ih (by omega)).trans (.of_tick (m.tick_beforeRound hk true))
  exact m.beforeRound_end ▸ hrounds 24 le_rfl

/-- A byte operation ends with the permutation if the cursor wrapped, and without one if not (rules R55, R61). -/
theorem Micro.afterByte_reaches (c : Context) (m : Micro) :
    (m.afterByte c).Reaches { m.withContext c.permuteIfWrapped with rnd := none } := by
  unfold Context.permuteIfWrapped
  split
  case isTrue hwrap => exact Micro.reaches_permuted (if_pos hwrap)
  case isFalse hstay =>
    have hrnd : (m.afterByte c).rnd = none := if_neg hstay
    have hsame : m.afterByte c = { m.withContext c with rnd := none } := by rw [← hrnd]; rfl
    exact hsame ▸ .refl _

/-! ### The activities of a command -/

theorem Micro.responding_reaches (r : Rsp) (s : State) :
    Micro.Reaches ⟨s, .responding r, none, 0⟩ (Micro.idle (s.respond r)) :=
  .of_tick rfl

theorem Micro.absorbing_reaches (bs : List Byte) (s : State) (k : BitVec 22) :
    Micro.Reaches ⟨s, .absorbing bs, none, k⟩ ⟨{ s with ctx := s.ctx.absorbBytes bs }, .absorbing [], none, k⟩ := by
  induction bs generalizing s with
  | nil => exact .refl _
  | cons b bs ih =>
    have hbyte := Micro.afterByte_reaches (s.ctx.takeByte b) ⟨s, .absorbing bs, none, k⟩
    exact .head rfl (hbyte.trans (ih { s with ctx := s.ctx.absorbByte b }))

/-- The last micro steps of an UPDATE with bytes: `PHASE <- 2`, and the response. -/
theorem Micro.absorbing_completes (bs : List Byte) (s : State) : Micro.Reaches ⟨s, .absorbing bs, none, 0⟩
    (Micro.idle { s with phase := .absorbing, ctx := s.ctx.absorbBytes bs, rsps := s.rsps ++ [.ok] }) :=
  (Micro.absorbing_reaches bs s 0).trans (.head rfl (Micro.responding_reaches .ok _))

/-- `OUTREM` counts down exactly while the bytes left fit its 22 bits. -/
theorem outrem_pred {n : Nat} (hn : n + 1 < 2 ^ 22) :
    BitVec.ofNat 22 (n + 1) ≠ 0 ∧ BitVec.ofNat 22 (n + 1) - 1 = BitVec.ofNat 22 n := by
  constructor
  · rw [Ne, ← BitVec.toNat_inj, BitVec.toNat_ofNat, Nat.mod_eq_of_lt hn]
    exact Nat.succ_ne_zero n
  · rw [BitVec.ofNat_add]
    exact BitVec.add_sub_cancel ..

/-- The context moves on by one byte and the byte is emitted. -/
def State.emitByte (s : State) : State := { s with ctx := s.ctx.afterSqueeze, out := s.out ++ [s.ctx.outByte] }

theorem Micro.tick_squeezing {m : Micro} (hrnd : m.rnd = none) (hact : m.activity = .squeezing) (r : Bool) :
    m.tick r = .next (m.squeezeTick r) := by
  simp [Micro.tick, hrnd, hact]

theorem Micro.squeezeTick_done {m : Micro} (h : m.outrem = 0) (r : Bool) :
    m.squeezeTick r = (m.withPhase .finished).answer .ok := if_pos h

theorem Micro.squeezeTick_stalled {m : Micro} (h : m.outrem ≠ 0) : m.squeezeTick false = m := if_neg h

theorem Micro.squeezeTick_taken {m : Micro} (h : m.outrem ≠ 0) : m.squeezeTick true =
    { m.afterByte m.core.ctx.advance with
      core := { (m.afterByte m.core.ctx.advance).core with out := m.core.out ++ [m.core.ctx.outByte] }
      outrem := m.outrem - 1 } := if_neg h

theorem Micro.squeezing_byte_reaches {k : BitVec 22} (hk : k ≠ 0) (s : State) :
    Micro.Reaches ⟨s, .squeezing, none, k⟩ ⟨s.emitByte, .squeezing, none, k - 1⟩ := by
  have hbyte := Micro.afterByte_reaches s.ctx.advance ⟨{ s with out := s.out ++ [s.ctx.outByte] }, .squeezing, none, k - 1⟩
  exact .head ((Micro.tick_squeezing rfl rfl true).trans (congrArg _ (Micro.squeezeTick_taken hk))) hbyte

theorem Micro.squeezing_reaches {n : Nat} (hn : n < 2 ^ 22) (s : State) :
    Micro.Reaches ⟨s, .squeezing, none, BitVec.ofNat 22 n⟩
      ⟨{ s with ctx := (s.ctx.squeeze n).2, out := s.out ++ (s.ctx.squeeze n).1 }, .squeezing, none, 0⟩ := by
  induction n generalizing s with
  | zero =>
    rw [Context.squeeze_zero, List.append_nil]
    exact .refl _
  | succ n ih =>
    obtain ⟨hne, hpred⟩ := outrem_pred hn
    have hrest := ih (by omega) s.emitByte
    have hbytes : s.emitByte.out ++ (s.emitByte.ctx.squeeze n).1 = s.out ++ (s.ctx.squeeze (n + 1)).1 := by
      simp [State.emitByte]
    rw [hbytes, ← hpred] at hrest
    exact (Micro.squeezing_byte_reaches hne s).trans hrest

/-- FINISH after its padding XORs: the permutation, the rewinding, the bytes, `PHASE <- 3`, and the response. -/
theorem Micro.padded_completes {len : Nat} (hlen : len < 2 ^ 22) (s : State) :
    Micro.Reaches ⟨{ s with ctx := s.ctx.pad }, .padded, some 0, BitVec.ofNat 22 len⟩ (Micro.idle (s.afterFinish len)) := by
  have hpermuted := Micro.reaches_permuted (m := ⟨{ s with ctx := s.ctx.pad }, .padded, some 0, BitVec.ofNat 22 len⟩) rfl
  have hbytes := Micro.squeezing_reaches hlen { s with ctx := s.ctx.closeAbsorption }
  exact hpermuted.trans (.head rfl (hbytes.trans (.head rfl (Micro.responding_reaches .ok _))))

/-! ### One action from its start to its end (rule R91) -/

theorem Micro.takeUpdate_completes {bs : List Byte} {s t : State} (h : absorbCommand bs s = .next t) :
    ∃ m, Micro.takeUpdate bs (Micro.idle s) = .next m ∧ m.Reaches (Micro.idle t) := by
  obtain ⟨hp, rfl⟩ | ⟨hp, hin, rfl⟩ := absorbCommand_next h
  · exact ⟨_, by simp [Micro.takeUpdate, hp, Micro.answer, Micro.idle], Micro.responding_reaches _ s⟩
  · rw [List.append_nil]
    exact ⟨_, by simp [Micro.takeUpdate, hp, hin, Micro.idle], Micro.absorbing_completes bs s⟩

theorem Micro.take_start_completes {v : BitVec 3} {s t : State} (h : execStart v s = .next t) :
    ∃ m, Micro.take (.start v) (Micro.idle s) = .next m ∧ m.Reaches (Micro.idle t) := by
  obtain ⟨hp, rfl⟩ | ⟨hp, hv, rfl⟩ | ⟨hp, d, hd, rfl⟩ := execStart_next h
  · exact ⟨_, by simp [Micro.take, hp, Micro.answer, Micro.idle], Micro.responding_reaches _ s⟩
  · exact ⟨_, by simp [Micro.take, hp, hv, Micro.answer, Micro.idle], Micro.responding_reaches _ s⟩
  · rw [List.append_nil]
    exact ⟨_, by simp [Micro.take, hp, hd, Micro.answer, Micro.withContext, Micro.withPhase, Micro.idle],
      Micro.responding_reaches .ok { s with phase := .started, ctx := Context.bind d }⟩

theorem Micro.take_update0_completes {s t : State} (h : execUpdate0 s = .next t) :
    ∃ m, Micro.take .update0 (Micro.idle s) = .next m ∧ m.Reaches (Micro.idle t) := by
  obtain ⟨hp, rfl⟩ | ⟨hp, rfl⟩ := execUpdate0_next h
  · exact ⟨_, by simp [Micro.take, hp, Micro.answer, Micro.idle], Micro.responding_reaches _ s⟩
  · rw [List.append_nil]
    exact ⟨_, by simp [Micro.take, hp, Micro.answer, Micro.idle], Micro.responding_reaches .ok s⟩

/-- `OUTREM` has room for every length of rule R64. -/
theorem outputLength_lt {cfg : Config} {fout : BitVec 7} {n : BitVec 22} {len : Nat}
    (h : outputLength cfg fout n = some len) : len < 2 ^ 22 := by
  obtain ⟨-, rfl⟩ | ⟨-, rfl, -⟩ := outputLength_eq_some_iff.1 h <;> omega

theorem Micro.take_finish_completes {n : BitVec 22} {s t : State} (h : execFinish n s = .next t) :
    ∃ m, Micro.take (.finish n) (Micro.idle s) = .next m ∧ m.Reaches (Micro.idle t) := by
  obtain ⟨hp, rfl⟩ | ⟨hp, hn, rfl⟩ | ⟨hp, hin, len, hlen, rfl⟩ := finishWith_next h
  · exact ⟨_, by simp [Micro.take, hp, Micro.answer, Micro.idle], Micro.responding_reaches _ s⟩
  · exact ⟨_, by simp [Micro.take, hp, hn, Micro.answer, Micro.idle], Micro.responding_reaches _ s⟩
  · exact ⟨_, by simp [Micro.take, hp, hin, hlen, Micro.withContext, Micro.idle],
      Micro.padded_completes (outputLength_lt hlen) s⟩

/-- A command that is answered is taken by the finer model, which ends between commands in the same state. -/
theorem Micro.take_completes {i : Instr} {s t : State} (h : exec i s = .next t) :
    ∃ m, Micro.take i (Micro.idle s) = .next m ∧ m.Reaches (Micro.idle t) := by
  cases i with
  | start v => exact Micro.take_start_completes h
  | update0 => exact Micro.take_update0_completes h
  | update1 b0 => exact Micro.takeUpdate_completes h
  | update2 b0 b1 => exact Micro.takeUpdate_completes h
  | update3 b0 b1 b2 => exact Micro.takeUpdate_completes h
  | finish n => exact Micro.take_finish_completes h

theorem Micro.tick_idle (s : State) (r : Bool) : (Micro.idle s).tick r = (Micro.idle s).accept := rfl

theorem Micro.accept_reset {s : State} (h : s.nextAction = some .reset) :
    (Micro.idle s).accept = .next (Micro.idle s.present.hostReset) := by
  simp [Micro.accept, h, Micro.idle]

theorem Micro.accept_illegal {s : State} {w : Word32} (hw : s.nextAction = some (.word w)) (hdec : decode w = .illegal) :
    (Micro.idle s).accept = .next ⟨s.present, .responding .illegalCommand, none, 0⟩ := by
  simp [Micro.accept, hw, hdec, Micro.answer, Micro.idle]

theorem Micro.accept_command {s : State} {w : Word32} {i : Instr} (hw : s.nextAction = some (.word w))
    (hdec : decode w = .command i) : (Micro.idle s).accept = Micro.take i (Micro.idle s.present) := by
  simp [Micro.accept, hw, hdec, Micro.idle]

theorem Micro.reaches_of_step {s t : State} (h : step s = .next t) : (Micro.idle s).Reaches (Micro.idle t) := by
  obtain ⟨-, rfl⟩ | ⟨hreset, rfl⟩ | ⟨w, hw, hdec, rfl⟩ | ⟨w, i, hw, hdec, hexec⟩ := step_next h
  · exact .refl _
  · exact .of_tick (Micro.accept_reset hreset)
  · exact .head (Micro.accept_illegal hw hdec) (Micro.responding_reaches _ s.present)
  · obtain ⟨m, htake, hrest⟩ := Micro.take_completes hexec
    exact .head ((Micro.accept_command hw hdec).trans htake) hrest

/-- Settles O54: the action is taken, and each activity of its command runs to its end. -/
theorem microStepsRefineTheStep : Obligations.MicroStepsRefineTheStep := fun _ _ h => Micro.reaches_of_step h

/-! ### A host that stalls (rule R89) -/

/-- A host that does not take a byte holds the block where it is, and otherwise makes no difference. -/
theorem Micro.tick_false (m : Micro) : m.tick false = m.tick true ∨ m.tick false = .next m := by
  cases hrnd : m.rnd with
  | some ir => exact .inl ((m.tick_of_round hrnd false).trans (m.tick_of_round hrnd true).symm)
  | none =>
    cases hact : m.activity with
    | squeezing =>
      rw [Micro.tick_squeezing hrnd hact, Micro.tick_squeezing hrnd hact]
      by_cases hdone : m.outrem = 0
      · exact .inl (by rw [Micro.squeezeTick_done hdone, Micro.squeezeTick_done hdone])
      · exact .inr (by rw [Micro.squeezeTick_stalled hdone])
    | absorbing rest => cases rest <;> exact .inl (by simp only [Micro.tick, hrnd, hact])
    | idle => exact .inl (by simp only [Micro.tick, hrnd, hact])
    | padded => exact .inl (by simp only [Micro.tick, hrnd, hact])
    | responding q => exact .inl (by simp only [Micro.tick, hrnd, hact])

/-- A block without a further action stays at the end, so every micro step leads on to it. -/
theorem Micro.Reaches.next_tick {m : Micro} {t : State} (h : m.Reaches (Micro.idle t)) (hwait : t.nextAction = none)
    (r : Bool) : ∃ m', m.tick r = .next m' ∧ m'.Reaches (Micro.idle t) := by
  have htaking : ∃ m', m.tick true = .next m' ∧ m'.Reaches (Micro.idle t) := by
    obtain ⟨n, hn⟩ := h
    cases n with
    | zero =>
      cases hn
      exact ⟨_, by simp [Micro.tick_idle, Micro.accept, hwait], .refl _⟩
    | succ n =>
      rw [List.replicate_succ, Micro.run] at hn
      split at hn
      next m' hm' => exact ⟨m', hm', n, hn⟩
      all_goals cases hn
  cases r with
  | true => exact htaking
  | false =>
    obtain hsame | hstall := m.tick_false
    · exact hsame ▸ htaking
    · exact ⟨m, hstall, h⟩

theorem Micro.Reaches.after_stalls {m : Micro} {t : State} (h : m.Reaches (Micro.idle t)) (hwait : t.nextAction = none)
    (readies : List Bool) : ∃ n, Micro.run (readies ++ List.replicate n true) m = .next (Micro.idle t) := by
  induction readies generalizing m with
  | nil => exact h
  | cons r rs ih =>
    obtain ⟨m', htick, hrest⟩ := h.next_tick hwait r
    obtain ⟨n, hn⟩ := ih hrest
    exact ⟨n, by rw [List.cons_append, Micro.run_cons_of_next htick, hn]⟩

/-- Settles O55: the end stays in reach whatever the host did with `out_ready`, since the one action is used up there. -/
theorem stallingChangesNothing : Obligations.StallingChangesNothing := by
  intro s t x readies hp h
  obtain ⟨hpending, -⟩ := oneResponsePerWord s t x [] hp h
  exact (Micro.reaches_of_step h).after_stalls (by simp [State.nextAction, hpending]) readies

/-! ### The ports (rule R30) -/

theorem Micro.ports_out_eq_some {m : Micro} {b : Byte} {last : Bool} (h : m.ports.out = some (b, last)) :
    m.rnd = none ∧ m.activity = .squeezing ∧ m.outrem ≠ 0 ∧ b = m.core.ctx.outByte ∧ last = (m.outrem == 1) := by
  simp only [Micro.ports] at h
  split at h
  next hrnd hact =>
    split at h
    · cases h
    next hne =>
      cases h
      exact ⟨hrnd, hact, hne, rfl, rfl⟩
  · cases h

theorem Micro.takeUpdate_keeps_rsps {bs : List Byte} {m m' : Micro} (h : m.takeUpdate bs = .next m') :
    m'.core.rsps = m.core.rsps := by
  unfold Micro.takeUpdate at h
  split_ifs at h <;> cases h <;> rfl

theorem Micro.take_keeps_rsps {i : Instr} {m m' : Micro} (h : Micro.take i m = .next m') : m'.core.rsps = m.core.rsps := by
  cases i with
  | start v =>
    simp only [Micro.take] at h
    split at h
    · split at h <;> cases h <;> rfl
    · cases h; rfl
  | update0 => cases h; rfl
  | update1 b0 => exact Micro.takeUpdate_keeps_rsps h
  | update2 b0 b1 => exact Micro.takeUpdate_keeps_rsps h
  | update3 b0 b1 b2 => exact Micro.takeUpdate_keeps_rsps h
  | finish n =>
    simp only [Micro.take] at h
    split at h
    · split at h
      · split at h
        · cases h; rfl
        · cases h
      · cases h; rfl
    · cases h; rfl

theorem Micro.accept_keeps_rsps {m m' : Micro} (h : m.accept = .next m') : m'.core.rsps = m.core.rsps := by
  unfold Micro.accept at h
  split at h
  · cases h; rfl
  · cases h; rfl
  · split at h
    · exact Micro.take_keeps_rsps (m := { m with core := m.core.present }) h
    · cases h; rfl

theorem Micro.squeezeTick_keeps_rsps (r : Bool) (m : Micro) : (m.squeezeTick r).core.rsps = m.core.rsps := by
  unfold Micro.squeezeTick
  split
  · rfl
  · split <;> rfl

/-- Only the micro step that ends a command adds a response, the one that stands on the port. -/
theorem Micro.tick_rsps {m m' : Micro} {r : Bool} (h : m.tick r = .next m') : m'.core.rsps = m.core.rsps ∨
    ∃ q : Rsp, m.ports.rsp = some q.code ∧ m'.core.rsps = m.core.rsps ++ [q] := by
  cases hrnd : m.rnd with
  | some ir =>
    rw [Micro.tick_of_round hrnd] at h
    cases h
    exact .inl (by rw [Micro.withContext_core])
  | none =>
    simp only [Micro.tick, hrnd] at h
    split at h
    · exact .inl (Micro.accept_keeps_rsps h)
    · cases h
      exact .inl rfl
    · cases h
      exact .inl rfl
    · cases h
      exact .inl rfl
    · cases h
      exact .inl (Micro.squeezeTick_keeps_rsps r m)
    next q hact =>
      cases h
      exact .inr ⟨q, by simp only [Micro.ports, hrnd, hact], rfl⟩

/-- Settles O56: the idle and the busy ports by definition; an output byte by the state that shows it; a response by the micro
step that adds it. -/
theorem portsOfTheBlock : Obligations.PortsOfTheBlock := by
  refine ⟨fun s => rfl, fun m hbusy => ?busy, fun m b last h => ?byte, fun m m' r h hne => ?response⟩
  case busy => simp [Micro.ports, Micro.busy, hbusy]
  case byte =>
    obtain ⟨hrnd, hact, hne, rfl, rfl⟩ := Micro.ports_out_eq_some h
    refine ⟨?stalled, by simp, _, Micro.tick_squeezing hrnd hact true, ?taken⟩
    case stalled => rw [Micro.tick_squeezing hrnd hact, Micro.squeezeTick_stalled hne]
    case taken => rw [Micro.squeezeTick_taken hne]; exact ⟨rfl, rfl⟩
  case response => exact (Micro.tick_rsps h).resolve_left hne

end Sys2Proof.Machine

/-!
PROOFS. The family of statements on the whole model, the commands: the frames of START, UPDATE and FINISH, where the model stops,
and the tables and codes (10_state.md, 41_variant_rom_start.md, 42_absorb.md, 43_finish.md, 60_exceptions.md).
-/

namespace Sys2Proof.Machine

/-! ### The tables and the codes (rules R12 to R16, R71) -/

theorem roundConstants_table :
    ([(0x0000000000000001, 0), (0x0000000000008082, 1), (0x800000000000808A, 2),
      (0x8000000080008000, 3), (0x000000000000808B, 4), (0x0000000080000001, 5),
      (0x8000000080008081, 6), (0x8000000000008009, 7), (0x000000000000008A, 8),
      (0x0000000000000088, 9), (0x0000000080008009, 10), (0x000000008000000A, 11),
      (0x000000008000808B, 12), (0x800000000000008B, 13), (0x8000000000008089, 14),
      (0x8000000000008003, 15), (0x8000000000008002, 16), (0x8000000000000080, 17),
      (0x000000000000800A, 18), (0x800000008000000A, 19), (0x8000000080008081, 20),
      (0x8000000000008080, 21), (0x0000000080000001, 22), (0x8000000080008008, 23)] :
      List (Lane × Fin 24)) = (List.finRange 24).map fun ir => (roundConstants[ir], ir) := rfl

/-- The bits that any round constant has: those at 0, 1, 3, 7, 15, 31 and 63. -/
def roundConstantMask : Lane := 0x800000008000808B

theorem roundConstants_and_mask : ∀ ir : Fin 24, roundConstants[ir] &&& roundConstantMask = roundConstants[ir] := by decide

theorem roundConstantMask_bits : ∀ j : Fin 64,
    roundConstantMask.getLsbD j.val = true → j.val ∈ [0, 1, 3, 7, 15, 31, 63] := by
  decide

theorem roundConstants_bits (ir : Fin 24) (j : Fin 64) (h : roundConstants[ir].getLsbD j.val = true) :
    j.val ∈ [0, 1, 3, 7, 15, 31, 63] := by
  rw [← roundConstants_and_mask, BitVec.getLsbD_and, Bool.and_eq_true] at h
  exact roundConstantMask_bits j h.right

theorem rotationOffsets_injective : ∀ i j : Fin 25, rotationOffsets[i] = rotationOffsets[j] → i = j := by decide

theorem laneDestinations_coordinates : ∀ i : Fin 25,
    laneDestinations[i].val = i.val / 5 + 5 * ((2 * (i.val % 5) + 3 * (i.val / 5)) % 5) := by decide

theorem walkTables_succ : ∀ k : Fin 23, walkLanes[k.succ] = laneDestinations[walkLanes[k.castSucc]] ∧
    walkRotations[k.succ] = rotationOffsets[walkLanes[k.castSucc]] := by decide

theorem walkRotations_triangular : ∀ k : Fin 24, walkRotations[k] = ((k.val + 1) * (k.val + 2) / 2) % 64 := by decide

/-- Settles O10: each table by its finite facts. -/
theorem romTablesByDefinition : Obligations.RomTablesByDefinition := by
  refine ⟨?table, roundConstants_bits, rfl, rfl, fun i => ?offsets, rotationOffsets_injective,
    fun i => ⟨laneDestinations_coordinates i, laneSources_laneDestinations i⟩, rfl, rfl, walkTables_succ, rfl,
    walkRotations_triangular⟩
  case table =>
    rw [roundConstants_table, List.forall_mem_map]
    exact fun _ _ => rfl
  case offsets =>
    obtain ⟨hle, hzero⟩ := rotationOffsets_bounds i
    exact ⟨by omega, hzero⟩

theorem Rsp.code_injective {r q : Rsp} (h : r.code = q.code) : r = q := by
  cases r <;> cases q <;> revert h <;> decide

theorem Rsp.code_lt (r : Rsp) : r.code.toNat < 5 := by
  cases r <;> decide

theorem Phase.code_surjective (c : BitVec 2) : ∃ p : Phase, p.code = c := by
  have hall : ∀ c : BitVec 2, c = 0 ∨ c = 1 ∨ c = 2 ∨ c = 3 := by decide
  obtain rfl | rfl | rfl | rfl := hall c
  · exact ⟨.uninitialized, rfl⟩
  · exact ⟨.started, rfl⟩
  · exact ⟨.absorbing, rfl⟩
  · exact ⟨.finished, rfl⟩

/-- Settles O35: the codes by definition, and what they are together. -/
theorem codesOfResponsesAndPhases : Obligations.CodesOfResponsesAndPhases :=
  ⟨rfl, rfl, rfl, rfl, rfl, fun _ _ => Rsp.code_injective, Rsp.code_lt, rfl, rfl, rfl, rfl, Phase.code_surjective⟩

/-! ### START (rules R51, R52) -/

theorem exists_variantLookup {v : BitVec 3} (hv : v.toNat ≤ 5) : ∃ d, variantLookup v = some d := by
  rw [← Option.ne_none_iff_exists', Ne, variantLookup_eq_none_iff]
  omega

/-- Settles O59: the ids 0 to 5 have a row, which START binds; every answer of START is a next state. -/
theorem startCompletes : Obligations.StartCompletes := by
  refine fun v s => ⟨fun hp hv => ?_, execStart_completes v s⟩
  obtain ⟨d, hd⟩ := exists_variantLookup hv
  exact ⟨d, hd, exec_start_of_entry hp hd⟩

/-- Settles O19: START writes the row's parameters, and everything else without looking at the row. -/
theorem variantsDifferOnlyInParameters : Obligations.VariantsDifferOnlyInParameters := by
  refine ⟨fun v w s t u hp hv hw ht hu => ?frame, fun s t u hp ht hu => ?shakeAndSha3⟩
  case frame =>
    obtain ⟨d, hd⟩ := exists_variantLookup hv
    obtain ⟨e, he⟩ := exists_variantLookup hw
    cases ht.symm.trans (exec_start_of_entry hp hd)
    cases hu.symm.trans (exec_start_of_entry hp he)
    rfl
  case shakeAndSha3 =>
    cases ht.symm.trans (exec_start_of_entry hp (d := ⟨1088, 0, 0x1F⟩) rfl)
    cases hu.symm.trans (exec_start_of_entry hp (d := ⟨1088, 256, 0x06⟩) rfl)
    exact ⟨rfl, rfl, rfl, rfl, rfl⟩

/-! ### UPDATE (rules R55 to R59) -/

/-- How an UPDATE word with the bytes `bs` leads from `s` to `t`: rejected, or accepted; only a word without a byte does not look
at the cursor. -/
def UpdatedTo (bs : List Byte) (s t : State) : Prop :=
  (s.phase.holdsContext = false ∧ t = s.respond .protocolViolation) ∨
  (s.phase.holdsContext = true ∧ (bs = [] ∨ s.ctx.inRange = true) ∧ t = s.afterUpdates [bs])

theorem updatedTo_of_absorbCommand {bs : List Byte} {s t : State} (hne : bs ≠ []) (h : absorbCommand bs s = .next t) :
    UpdatedTo bs s t := by
  obtain hrejected | ⟨hp, hin, rfl⟩ := absorbCommand_next h
  · exact .inl hrejected
  · exact .inr ⟨hp, .inr hin, by simp [State.afterUpdates, hne]⟩

theorem updatedTo_of_updateBytes {i : Instr} {bs : List Byte} {s t : State} (hi : updateBytes i = some bs)
    (h : exec i s = .next t) : UpdatedTo bs s t := by
  cases i with
  | start v => cases hi
  | update0 =>
    cases hi
    obtain hrejected | ⟨hp, rfl⟩ := execUpdate0_next h
    · exact .inl hrejected
    · exact .inr ⟨hp, .inl rfl, by simp [State.afterUpdates]⟩
  | update1 b0 => cases hi; exact updatedTo_of_absorbCommand (by simp) h
  | update2 b0 b1 => cases hi; exact updatedTo_of_absorbCommand (by simp) h
  | update3 b0 b1 b2 => cases hi; exact updatedTo_of_absorbCommand (by simp) h
  | finish n => cases hi

/-- Bytes that stay below the end of the block are XORed in side by side, and the cursor stands after them. -/
theorem Context.absorbBytes_of_lt {bs : List Byte} {c : Context} (hin : c.inRange = true)
    (hlt : c.idx.toNat + bs.length < c.rate.toNat) :
    (c.absorbBytes bs).idx.toNat = c.idx.toNat + bs.length ∧
    (c.absorbBytes bs).lanes = xorBytes bs c.idx.toNat c.lanes := by
  refine ⟨by rw [Context.absorbBytes_idx_toNat bs hin, Nat.mod_eq_of_lt hlt], ?_⟩
  induction bs generalizing c with
  | nil => rfl
  | cons b bs ih =>
    rw [List.length_cons] at hlt
    have hidx : (c.absorbByte b).idx.toNat = c.idx.toNat + 1 := by
      rw [Context.absorbByte_idx_toNat b hin, Nat.mod_eq_of_lt (by omega)]
    have hlanes : (c.absorbByte b).lanes = stateByteXor c.lanes c.idx.toNat b := by
      rw [Context.absorbByte_lanes b hin, if_neg (by omega)]
    rw [Context.absorbBytes_cons, ih (c.absorbByte_inRange b hin) (by rw [hidx, Context.absorbByte_rate]; omega), hidx,
      hlanes, xorBytes]

theorem stateByteRead_xorBytes_outside (bs : List Byte) (a : Lanes) {j k : Nat} (hj : j < 200)
    (hout : j < k ∨ k + bs.length ≤ j) : stateByteRead (xorBytes bs k a) j = stateByteRead a j := by
  induction bs generalizing a k with
  | nil => rfl
  | cons b bs ih =>
    rw [List.length_cons] at hout
    have hne : j ≠ k := by omega
    rw [xorBytes, ih _ (by omega), stateByteRead_stateByteXor a k b hj, if_neg hne]
    exact BitVec.xor_zero

/-- Settles O23: the parameters are kept by AbsorbByte; below the end of the block the bytes are XORed into consecutive
addresses; a rejection is `respond` alone. -/
theorem updateFrame : Obligations.UpdateFrame := by
  intro i bs s t hi h
  obtain ⟨hpending, hcp, hresets, hrsps⟩ := answers_keep_host (exec_answers h)
  obtain ⟨hp, rfl⟩ | ⟨hp, hcursor, rfl⟩ := updatedTo_of_updateBytes hi h
  · refine ⟨rfl, rfl, rfl, rfl, hpending, hcp, hresets, hrsps, fun hphase => ?noContext, fun _ => ⟨rfl, rfl⟩⟩
    rw [Phase.holdsContext_iff.2 hphase] at hp
    cases hp
  · have hctx : (s.afterUpdates [bs]).ctx = s.ctx.absorbBytes bs := by simp [State.afterUpdates]
    rw [hctx]
    refine ⟨s.ctx.absorbBytes_rate bs, s.ctx.absorbBytes_fout bs, s.ctx.absorbBytes_dsfx bs, rfl, hpending, hcp, hresets,
      hrsps, fun _ hlt => ?bytes, fun hphase => ?rejected⟩
    case bytes =>
      obtain rfl | hin := hcursor
      · exact ⟨rfl, fun _ _ _ => rfl⟩
      · obtain ⟨hidx, hlanes⟩ := Context.absorbBytes_of_lt hin hlt
        exact ⟨hidx, fun k hk hout => by rw [hlanes, stateByteRead_xorBytes_outside bs _ hk hout]⟩
    case rejected =>
      rw [Phase.not_holdsContext_iff.2 hphase] at hp
      cases hp

theorem stateByteRead_stateByteXor_ne (a : Lanes) {k k' : Nat} (b : Byte) (hk' : k' < 200) (hne : k' ≠ k) :
    stateByteRead (stateByteXor a k b) k' = stateByteRead a k' := by
  rw [stateByteRead_stateByteXor a k b hk', if_neg hne]
  exact BitVec.xor_zero

/-- Settles O25: the byte operations XOR at addresses below `RATE` and read there. -/
theorem capacityIsUntouchedByBytes : Obligations.CapacityIsUntouchedByBytes := by
  intro c b hidx hrate
  have hin := c.inRange_iff.2 ⟨hidx, hrate⟩
  refine ⟨fun k hk hcap => ⟨fun hbelow => ?absorb, ?pad⟩, c.idx.toNat, hidx, rfl⟩
  case absorb =>
    rw [Context.absorbByte_lanes b hin, if_neg hbelow.ne, stateByteRead_stateByteXor_ne _ _ hk (by omega)]
  case pad =>
    simp only [Context.pad, Context.xorByte_lanes]
    rw [stateByteRead_stateByteXor_ne _ _ hk (by omega), stateByteRead_stateByteXor_ne _ _ hk (by omega)]

/-! ### FINISH (rules R62, R64) -/

/-- Settles O29: a rejection is `respond` alone; an accepted FINISH leaves phase 3, an accepted START phase 1. -/
theorem finishAndStartFrame : Obligations.FinishAndStartFrame := by
  refine ⟨fun n s t h => ?finish, fun v s t h => ?start⟩
  case finish =>
    obtain ⟨hpending, hcp, hresets, hrsps⟩ := answers_keep_host (exec_answers h)
    obtain ⟨hrate, hfout, hdsfx⟩ := finishWith_keeps_parameters h
    have hwork : (∃ bytes, t.out = s.out ++ bytes) ∧
        (t.phase ≠ .finished → t.ctx = s.ctx ∧ t.out = s.out ∧ t.phase = s.phase) := by
      obtain ⟨-, rfl⟩ | ⟨-, -, rfl⟩ | ⟨-, -, len, -, rfl⟩ := finishWith_next h
      · exact ⟨⟨[], (List.append_nil _).symm⟩, fun _ => ⟨rfl, rfl, rfl⟩⟩
      · exact ⟨⟨[], (List.append_nil _).symm⟩, fun _ => ⟨rfl, rfl, rfl⟩⟩
      · exact ⟨⟨_, rfl⟩, fun hne => absurd rfl hne⟩
    obtain ⟨hout, hkept⟩ := hwork
    exact ⟨hrate, hfout, hdsfx, hpending, hcp, hresets, hout, hrsps, hkept⟩
  case start =>
    obtain ⟨hpending, hcp, hresets, hrsps⟩ := answers_keep_host (exec_answers h)
    have hwork : t.out = s.out ∧ (t.phase ≠ .started → t.ctx = s.ctx ∧ t.phase = s.phase) := by
      obtain ⟨-, rfl⟩ | ⟨-, -, rfl⟩ | ⟨-, d, -, rfl⟩ := execStart_next h
      · exact ⟨rfl, fun _ => ⟨rfl, rfl⟩⟩
      · exact ⟨rfl, fun _ => ⟨rfl, rfl⟩⟩
      · exact ⟨List.append_nil _, fun hne => absurd rfl hne⟩
    obtain ⟨hout, hkept⟩ := hwork
    exact ⟨hout, hpending, hcp, hresets, hrsps, hkept⟩

theorem outputLength_of_fixed (cfg : Config) {fout : BitVec 7} (n : BitVec 22) (hfixed : fout ≠ 0) :
    outputLength cfg fout n = some fout.toNat :=
  outputLength_eq_some_iff.2 (.inl ⟨hfixed, rfl⟩)

/-- Settles O33: the length is `FOUT`, and nothing else of FINISH looks at the operand. -/
theorem fixedDigestIgnoresOutlen : Obligations.FixedDigestIgnoresOutlen := by
  intro s n k hfixed
  simp only [exec, execFinish, finishWith, outputLength_of_fixed sbcore1 _ hfixed]

/-- Settles O34: the rejected FINISH leaves the phase, the context and the output that the second one works on. -/
theorem rejectedFinishLeavesTheContext : Obligations.RejectedFinishLeavesTheContext := by
  intro s t u n k hphase hxof hn ht hu
  have hp := Phase.holdsContext_iff.2 hphase
  cases ht.symm.trans (finishWith_of_bad_length (cfg := sbcore1) hp hxof hn)
  obtain ⟨hnot, -⟩ | ⟨-, hlen, rfl⟩ | ⟨-, hin, len, hlen, rfl⟩ := finishWith_next hu
  · cases hp.symm.trans hnot
  · obtain ⟨-, hk⟩ := outputLength_eq_none_iff.1 hlen
    exact ⟨_, finishWith_of_bad_length (s := s.respond .invalidOutputLength) hp hxof hk, rfl, rfl, rfl, _, rfl, by simp⟩
  · exact ⟨_, finishWith_of_length (s := s.respond .invalidOutputLength) hp hin hlen, rfl, rfl, rfl, _, rfl,
      by simp [State.afterFinish]⟩

/-! ### Where the model stops (log 5) -/

theorem absorbCommand_of_outside (bs : List Byte) {s : State} (hp : s.phase.holdsContext = true)
    (hout : s.ctx.inRange = false) : absorbCommand bs s = .fault .cursorOutsideRate := by
  simp [absorbCommand, withCursor, hp, hout]

theorem finishWith_of_outside {cfg : Config} {n : BitVec 22} {s : State} {len : Nat} (hp : s.phase.holdsContext = true)
    (hout : s.ctx.inRange = false) (hlen : outputLength cfg s.ctx.fout n = some len) :
    finishWith cfg n s = .fault .cursorOutsideRate := by
  simp [finishWith, withCursor, hp, hout, hlen]

/-- Settles O58: a context out of range is turned away by the check before the byte operations, FINISH with a good length too. -/
theorem cursorOutsideRateStops : Obligations.CursorOutsideRateStops := by
  intro s b0 b1 b2 n hphase hcursor
  have hp := Phase.holdsContext_iff.2 hphase
  have hout : s.ctx.inRange = false := by
    rw [← Bool.not_eq_true, Context.inRange_iff]
    omega
  refine ⟨absorbCommand_of_outside [b0] hp hout, absorbCommand_of_outside [b0, b1] hp hout,
    absorbCommand_of_outside [b0, b1, b2] hp hout, fun hgood => ?_⟩
  by_cases hfixed : s.ctx.fout = 0
  · exact finishWith_of_outside hp hout
      (outputLength_eq_some_iff.2 (.inr ⟨hfixed, rfl, hgood.resolve_left (absurd hfixed)⟩))
  · exact finishWith_of_outside hp hout (outputLength_of_fixed sbcore1 n hfixed)

/-! ### The two phases that hold a context (rule R16) -/

/-- In both phases that hold a context the model stops with the same fault. -/
def StopsInBoth (o : Phase → Host.Outcome State Fault Refusal) : Prop :=
  ∃ f, ∀ p : Phase, p.holdsContext = true → o p = .fault f

/-- In both phases that hold a context the next state is the same, its phase too. -/
def MeetsInBoth (o : Phase → Host.Outcome State Fault Refusal) : Prop :=
  ∃ t, ∀ p : Phase, p.holdsContext = true → o p = .next t

/-- In both phases that hold a context a response is added to `s`, the same one, and the phase is left as it is. -/
def RespondsInBoth (s : State) (o : Phase → Host.Outcome State Fault Refusal) : Prop :=
  ∃ r, ∀ p : Phase, p.holdsContext = true → o p = .next (State.respond r { s with phase := p })

theorem absorbCommand_in_both (bs : List Byte) (s : State) :
    StopsInBoth (fun p => absorbCommand bs { s with phase := p }) ∨
    MeetsInBoth (fun p => absorbCommand bs { s with phase := p }) := by
  cases hin : s.ctx.inRange with
  | true =>
    exact .inr ⟨{ s with phase := .absorbing, ctx := s.ctx.absorbBytes bs, rsps := s.rsps ++ [.ok] },
      fun p hp => absorbCommand_of_inRange bs (s := { s with phase := p }) hp hin⟩
  | false => exact .inl ⟨_, fun p hp => absorbCommand_of_outside bs (s := { s with phase := p }) hp hin⟩

/-- What a command does from a context in use does not depend on which of the two phases holds it. -/
theorem exec_in_both (i : Instr) (s : State) :
    StopsInBoth (fun p => exec i { s with phase := p }) ∨ MeetsInBoth (fun p => exec i { s with phase := p }) ∨
    RespondsInBoth s (fun p => exec i { s with phase := p }) := by
  cases i with
  | start v =>
    exact .inr (.inr ⟨_, fun p hp => exec_start_of_other_phase v (s := { s with phase := p })
      (Phase.ne_of_holdsContext hp).1⟩)
  | update0 => exact .inr (.inr ⟨_, fun p hp => exec_update0_of_context (s := { s with phase := p }) hp⟩)
  | update1 b0 => exact (absorbCommand_in_both [b0] s).imp_right .inl
  | update2 b0 b1 => exact (absorbCommand_in_both [b0, b1] s).imp_right .inl
  | update3 b0 b1 b2 => exact (absorbCommand_in_both [b0, b1, b2] s).imp_right .inl
  | finish n =>
    cases hlen : outputLength sbcore1 s.ctx.fout n with
    | none =>
      obtain ⟨hxof, hn⟩ := outputLength_eq_none_iff.1 hlen
      exact .inr (.inr ⟨_, fun p hp => finishWith_of_bad_length (s := { s with phase := p }) hp hxof hn⟩)
    | some len =>
      cases hin : s.ctx.inRange with
      | true =>
        exact .inr (.inl ⟨s.afterFinish len, fun p hp => finishWith_of_length (s := { s with phase := p }) hp hin hlen⟩)
      | false => exact .inl ⟨_, fun p hp => finishWith_of_outside (s := { s with phase := p }) hp hin hlen⟩

/-- Settles O41: the three ways a command can end are the same in both phases. -/
theorem startedAndAbsorbingAlike : Obligations.StartedAndAbsorbingAlike := by
  intro i s hs
  have hp : s.phase.holdsContext = true := Phase.holdsContext_iff.2 (.inl hs)
  obtain ⟨f, h⟩ | ⟨t, h⟩ | ⟨r, h⟩ := exec_in_both i s
  · exact .inl ⟨f, h s.phase hp, h .absorbing rfl⟩
  · exact .inr ⟨t, t, h s.phase hp, h .absorbing rfl, rfl, rfl, rfl, rfl, rfl, .inl rfl⟩
  · exact .inr ⟨_, _, h s.phase hp, h .absorbing rfl, rfl, rfl, rfl, rfl, rfl, .inr ⟨hs, rfl⟩⟩

end Sys2Proof.Machine

/-!
PROOFS. The family of statements on the whole model, the sponge: blocks and padding, the count of permutations, and the one-shot
DIGEST (30_encoding.md rule R39, 43_finish.md rules R63, R65, R66).
-/

namespace Sys2Proof.Machine

/-! ### A block filled to its end (rules R55, R63) -/

theorem xorBytes_append (bs cs : List Byte) (k : Nat) (a : Lanes) :
    xorBytes (bs ++ cs) k a = xorBytes cs (k + bs.length) (xorBytes bs k a) := by
  induction bs generalizing k a with
  | nil => rfl
  | cons b bs ih =>
    rw [List.cons_append, xorBytes, xorBytes, ih, List.length_cons, Nat.add_right_comm, Nat.add_assoc]

theorem xorBytes_zeros (n k : Nat) (a : Lanes) : xorBytes (List.replicate n 0) k a = a := by
  induction n generalizing k with
  | zero => rfl
  | succ n ih => rw [List.replicate_succ, xorBytes, stateByteXor_zero, ih]

/-- Bytes that reach the end of the block are all XORed in before the permutation, which runs once; the cursor is back at 0. -/
theorem Context.absorbBytes_to_end {bs : List Byte} {c : Context} (hin : c.inRange = true)
    (hend : c.idx.toNat + bs.length = c.rate.toNat) :
    (c.absorbBytes bs).idx = 0 ∧ (c.absorbBytes bs).lanes = keccakF (xorBytes bs c.idx.toNat c.lanes) := by
  obtain ⟨hidx, -⟩ := c.inRange_iff.1 hin
  constructor
  · apply BitVec.eq_of_toNat_eq
    rw [Context.absorbBytes_idx_toNat bs hin, hend, Nat.mod_self]
    rfl
  · obtain rfl | ⟨init, b, rfl⟩ := List.eq_nil_or_concat' bs
    · simp at hend
      omega
    · rw [List.length_append, List.length_singleton] at hend
      obtain ⟨hcursor, hlanes⟩ := Context.absorbBytes_of_lt (bs := init) hin (by omega)
      rw [Context.absorbBytes_append, Context.absorbBytes_cons, Context.absorbBytes_nil,
        Context.absorbByte_lanes b (c.absorbBytes_inRange init hin), hcursor, Context.absorbBytes_rate, hlanes,
        if_pos (by omega), xorBytes_append]
      rfl

theorem padBytes_length {rate idx : Nat} (h : idx < rate) (dsfx : Byte) : (padBytes rate idx dsfx).length = rate - idx := by
  unfold padBytes
  split
  · simp
    omega
  · simp
    omega

/-- The padding bytes XOR the suffix at the first free byte and 0x80 at the last one, which may be the same. -/
theorem xorBytes_padBytes {rate idx : Nat} (h : idx < rate) (dsfx : Byte) (a : Lanes) :
    xorBytes (padBytes rate idx dsfx) idx a = stateByteXor (stateByteXor a idx dsfx) (rate - 1) 0x80 := by
  unfold padBytes
  split
  case isTrue hlast =>
    have hsame : rate - 1 = idx := by omega
    rw [hsame, stateByteXor_stateByteXor_same]
    rfl
  case isFalse hfree =>
    have hlast : idx + 1 + (rate - idx - 2) = rate - 1 := by omega
    rw [xorBytes, xorBytes_append, xorBytes_zeros, List.length_replicate, hlast]
    rfl

theorem Context.eq_of_sameParameters {c c' : Context} (hsame : c.SameParameters c') (hlanes : c'.lanes = c.lanes)
    (hidx : c'.idx = c.idx) : c' = c := by
  obtain ⟨hrate, hfout, hdsfx⟩ := hsame
  cases c
  cases c'
  simp_all

theorem Context.pad_lanes (c : Context) :
    c.pad.lanes = stateByteXor (stateByteXor c.lanes c.idx.toNat c.dsfx) (c.rate.toNat - 1) 0x80 := rfl

theorem Context.closeAbsorption_eq {c : Context} (hin : c.inRange = true) :
    c.closeAbsorption = c.absorbBytes (padBytes c.rate.toNat c.idx.toNat c.dsfx) := by
  obtain ⟨hidx, -⟩ := c.inRange_iff.1 hin
  obtain ⟨hcursor, hlanes⟩ := Context.absorbBytes_to_end (bs := padBytes c.rate.toNat c.idx.toNat c.dsfx) hin
    (by rw [padBytes_length hidx]; omega)
  refine Context.eq_of_sameParameters ⟨by simp, by simp, by simp⟩ ?_ ?_
  · rw [hlanes, xorBytes_padBytes hidx, Context.closeAbsorption_lanes, Context.pad_lanes]
  · rw [hcursor, Context.closeAbsorption_idx]

/-- Settles O31: the padding bytes fill the block, and their XORs are those of steps 1 and 2. -/
theorem finishPadsTheBlock : Obligations.FinishPadsTheBlock := by
  refine ⟨fun c hidx hrate => Context.closeAbsorption_eq (c.inRange_iff.2 ⟨hidx, hrate⟩), fun c hlast _ => ?combined,
    rfl, rfl⟩
  case combined =>
    have hsame : c.rate.toNat - 1 = c.idx.toNat := by omega
    rw [Context.closeAbsorption_lanes, Context.pad_lanes, hsame, stateByteXor_stateByteXor_same]

/-! ### A message block by block (rules R65, R66) -/

theorem absorbBlocks_eq_foldl (rate : Nat) (m : List Byte) (a : Lanes) : absorbBlocks rate m a =
    (List.range (m.length / rate)).foldl (fun b i => absorbBlock b (blockOf rate m i)) a := rfl

theorem blockOf_length {rate q : Nat} {m : List Byte} (h : (q + 1) * rate ≤ m.length) : (blockOf rate m q).length = rate := by
  rw [Nat.succ_mul] at h
  rw [blockOf, List.length_take, List.length_drop]
  omega

/-- The first `q` blocks of a message, absorbed from the start of a block. -/
theorem Context.absorbBytes_blocks {c : Context} (hin : c.inRange = true) (hstart : c.idx = 0) (m : List Byte) {q : Nat}
    (hq : q * c.rate.toNat ≤ m.length) :
    (c.absorbBytes (m.take (q * c.rate.toNat))).idx = 0 ∧
    (c.absorbBytes (m.take (q * c.rate.toNat))).lanes =
      (List.range q).foldl (fun a i => absorbBlock a (blockOf c.rate.toNat m i)) c.lanes := by
  induction q with
  | zero =>
    rw [Nat.zero_mul]
    exact ⟨hstart, rfl⟩
  | succ q ih =>
    have hlen := blockOf_length hq
    obtain ⟨hcursor, hlanes⟩ := ih (by rw [Nat.succ_mul] at hq; omega)
    obtain ⟨hcursor', hlanes'⟩ := Context.absorbBytes_to_end (bs := blockOf c.rate.toNat m q)
      (c.absorbBytes_inRange (m.take (q * c.rate.toNat)) hin) (by rw [hcursor, hlen, Context.absorbBytes_rate]; simp)
    have hcut : m.take ((q + 1) * c.rate.toNat) = m.take (q * c.rate.toNat) ++ blockOf c.rate.toNat m q := by
      rw [Nat.succ_mul, List.take_add, blockOf]
    rw [hcut, Context.absorbBytes_append, List.range_succ, List.foldl_append, ← hlanes]
    exact ⟨hcursor', by rw [hlanes', hcursor]; rfl⟩

/-- A message absorbed from the start of a block: its whole blocks, then the rest without a permutation. -/
theorem Context.absorbBytes_lanes {c : Context} (hin : c.inRange = true) (hstart : c.idx = 0) (m : List Byte) :
    (c.absorbBytes m).lanes =
      xorBytes (m.drop (m.length / c.rate.toNat * c.rate.toNat)) 0 (absorbBlocks c.rate.toNat m c.lanes) := by
  obtain ⟨hidx, -⟩ := c.inRange_iff.1 hin
  have hblocks := Nat.div_mul_le_self m.length c.rate.toNat
  obtain ⟨hcursor, hlanes⟩ := Context.absorbBytes_blocks hin hstart m hblocks
  have hrest : (m.drop (m.length / c.rate.toNat * c.rate.toNat)).length < c.rate.toNat := by
    rw [List.length_drop, ← Nat.mod_eq_sub_div_mul]
    exact Nat.mod_lt _ (by omega)
  obtain ⟨-, hlanes'⟩ := Context.absorbBytes_of_lt (bs := m.drop (m.length / c.rate.toNat * c.rate.toNat))
    (c.absorbBytes_inRange (m.take (m.length / c.rate.toNat * c.rate.toNat)) hin)
    (by rw [hcursor, Context.absorbBytes_rate]; simpa using hrest)
  conv_lhs => rw [← List.take_append_drop (m.length / c.rate.toNat * c.rate.toNat) m]
  rw [Context.absorbBytes_append, hlanes', hcursor, hlanes, absorbBlocks_eq_foldl]
  rfl

/-! ### The count of permutations (rule R66) -/

/-- One increment wraps the cursor as often as it completes a block. -/
theorem Context.wraps_advance {c : Context} (hin : c.inRange = true) :
    (if c.advance.wrapped then 1 else 0) = (c.idx.toNat + 1) / c.rate.toNat := by
  obtain ⟨hidx, -⟩ := c.inRange_iff.1 hin
  simp only [Context.wrapped_advance_iff hin]
  split
  case isTrue hend => rw [hend, Nat.div_self (by omega)]
  case isFalse hne => rw [Nat.div_eq_of_lt (by omega)]

theorem Context.squeezePermutations_eq (n : Nat) {c : Context} (hin : c.inRange = true) :
    c.squeezePermutations n = (c.idx.toNat + n) / c.rate.toNat := by
  induction n generalizing c with
  | zero =>
    obtain ⟨hidx, -⟩ := c.inRange_iff.1 hin
    exact (Nat.div_eq_of_lt hidx).symm
  | succ n ih =>
    obtain ⟨hidx, -⟩ := c.inRange_iff.1 hin
    have hcount : (c.idx.toNat + 1) / c.rate.toNat + ((c.idx.toNat + 1) % c.rate.toNat + n) / c.rate.toNat =
        (c.idx.toNat + (n + 1)) / c.rate.toNat := by
      rw [Nat.add_comm, ← Nat.add_mul_div_left _ _ (by omega), Nat.add_right_comm, Nat.mod_add_div, Nat.add_right_comm,
        Nat.add_assoc]
    rw [Context.squeezePermutations, Context.wraps_advance hin, ih (c.afterSqueeze_inRange hin),
      Context.afterSqueeze_idx_toNat hin, Context.afterSqueeze_rate, hcount]

/-- A fixed digest is shorter than a block. -/
theorem vrom_fixedOutput_lt_rate : ∀ d ∈ vrom, d.fixedOutputBytes.toNat < d.rateBytes.toNat := by decide

/-- Settles O32: the lanes by blocks, by the padding and by the squeezing; the wraps of the cursor counted from the start of a
block. -/
theorem permutationCount : Obligations.PermutationCount := by
  intro d m len hd
  have hin := Context.bind_inRange hd
  have hin' := (Context.bind d).absorbBytes_inRange m hin
  have hclosed := ((Context.bind d).absorbBytes m).closeAbsorption_inRange hin'
  refine ⟨⟨Context.absorbBytes_lanes hin rfl m, ?padding, ?squeezing⟩, ?wraps, fun _ => ?fixed⟩
  case padding =>
    rw [Context.closeAbsorption_lanes, Context.pad_lanes, Context.absorbBytes_idx_toNat m hin, Context.absorbBytes_rate,
      Context.absorbBytes_dsfx]
    simp
  case squeezing => simp [Context.squeeze_lanes len hclosed]
  case wraps => simp [Context.absorbPermutations_eq m hin, Context.squeezePermutations_eq len hclosed]
  case fixed => exact Nat.div_eq_of_lt (vrom_fixedOutput_lt_rate d hd)

/-! ### The sponge (rules R63, R65) -/

/-- From the start of a block the bytes squeezed are the output bytes of the lanes. -/
theorem Context.squeeze_eq_outputBytes (n : Nat) {c : Context} (hin : c.inRange = true) (hstart : c.idx = 0) :
    (c.squeeze n).1 = (List.range n).map (outputByte c.rate.toNat c.lanes) := by
  have hbyte (j : Nat) : (c.squeeze j).2.outByte = outputByte c.rate.toNat c.lanes j := by
    rw [Context.outByte, Context.squeeze_lanes j hin, Context.squeeze_idx_toNat j hin, hstart]
    simp [outputByte]
  rw [Context.squeeze_bytes]
  exact List.map_congr_left fun j _ => hbyte j

theorem xorBytes_drop_all (m : List Byte) {rate : Nat} (h : rate ∣ m.length) (a : Lanes) :
    xorBytes (m.drop (m.length / rate * rate)) 0 a = a := by
  rw [Nat.div_mul_cancel h, List.drop_length]
  rfl

theorem padded_length_dvd {rate : Nat} (hrate : 0 < rate) (m : List Byte) (dsfx : Byte) :
    rate ∣ (m ++ padBytes rate (m.length % rate) dsfx).length := by
  have hlt := Nat.mod_lt m.length hrate
  have hsum : m.length + (rate - m.length % rate) = (m.length / rate + 1) * rate := by
    rw [Nat.succ_mul]
    have hdiv := Nat.div_add_mod' m.length rate
    omega
  rw [List.length_append, padBytes_length hlt, hsum]
  exact Nat.dvd_mul_left _ _

/-- After START, a message and steps 1 to 4 of FINISH the lanes are those of the padded message, block by block. -/
theorem Context.closeAbsorption_lanes_blocks {d : Descriptor} (hd : d ∈ vrom) (m : List Byte) :
    ((Context.bind d).absorbBytes m).closeAbsorption.lanes =
      absorbBlocks d.rateBytes.toNat
        (m ++ padBytes d.rateBytes.toNat (m.length % d.rateBytes.toNat) d.domainSuffixByte) Lanes.zero := by
  have hin := Context.bind_inRange hd
  obtain ⟨hlow, -⟩ := vrom_rate_bounds d hd
  rw [Context.closeAbsorption_eq ((Context.bind d).absorbBytes_inRange m hin), ← Context.absorbBytes_append,
    Context.absorbBytes_lanes hin rfl, Context.absorbBytes_rate, Context.absorbBytes_dsfx,
    Context.absorbBytes_idx_toNat m hin]
  simp only [Context.bind_rate, Context.bind_dsfx, Context.bind_idx, Context.bind_lanes, BitVec.toNat_ofNat, Nat.zero_mod,
    Nat.zero_add, BitVec.ofNat_eq_ofNat]
  exact xorBytes_drop_all _ (padded_length_dvd (by omega) m _) _

/-- What CORE emits for a message is the sponge of the variant, said block by block. -/
theorem Context.squeeze_eq_sponge {d : Descriptor} (hd : d ∈ vrom) (m : List Byte) (len : Nat) :
    (((Context.bind d).absorbBytes m).closeAbsorption.squeeze len).1 = sponge d m len := by
  have hin := (Context.bind d).absorbBytes_inRange m (Context.bind_inRange hd)
  obtain ⟨hrate, -⟩ := vrom_bytes_toNat d hd
  rw [Context.squeeze_eq_outputBytes len (Context.closeAbsorption_inRange _ hin) rfl,
    Context.closeAbsorption_lanes_blocks hd m, Context.closeAbsorption_rate, Context.absorbBytes_rate, Context.bind_rate,
    hrate]
  rfl

end Sys2Proof.Machine

/-!
PROOFS. The family of statements on the whole model, the host's side: long UPDATEs, the host's check of DIGEST, and the run of a
DIGEST (30_encoding.md rules R38, R39).
-/

namespace Sys2Proof.Machine

/-! ### UPDATE with any number of bytes (rule R39) -/

/-- Each word of the canonical cut carries its bytes, and together they are the message. -/
theorem splitBytes_updateBytes (m : List Byte) :
    ∃ bss : List (List Byte), (splitBytes m).map updateBytes = bss.map some ∧ bss.flatten = m := by
  induction m using splitBytes.induct with
  | case1 => exact ⟨[], rfl, rfl⟩
  | case2 b0 => exact ⟨[[b0]], rfl, rfl⟩
  | case3 b0 b1 => exact ⟨[[b0, b1]], rfl, rfl⟩
  | case4 b0 b1 b2 rest ih =>
    obtain ⟨bss, hmap, hflat⟩ := ih
    exact ⟨[b0, b1, b2] :: bss, by simp [splitBytes, updateBytes, hmap], by simp [hflat]⟩

theorem splitBytes_length (m : List Byte) : (splitBytes m).length = (m.length + 2) / 3 := by
  induction m using splitBytes.induct with
  | case1 => rfl
  | case2 b0 => simp [splitBytes]
  | case3 b0 b1 => simp [splitBytes]
  | case4 b0 b1 b2 rest ih =>
    simp only [splitBytes, List.length_cons, ih]
    omega

theorem update0_notMem_splitBytes (m : List Byte) : .update0 ∉ splitBytes m := by
  induction m using splitBytes.induct with
  | case1 => simp [splitBytes]
  | case2 b0 => simp [splitBytes]
  | case3 b0 b1 => simp [splitBytes]
  | case4 b0 b1 b2 rest ih => simp [splitBytes, ih]

theorem splitBytes_getElem? (m : List Byte) {i : Nat} (hi : i < (m.length + 2) / 3) :
    ((splitBytes m)[i]?).bind updateBytes = some ((m.drop (3 * i)).take 3) := by
  induction m using splitBytes.induct generalizing i with
  | case1 => simp at hi
  | case2 b0 =>
    obtain rfl : i = 0 := by simpa using hi
    rfl
  | case3 b0 b1 =>
    obtain rfl : i = 0 := by simpa using hi
    rfl
  | case4 b0 b1 b2 rest ih =>
    cases i with
    | zero => rfl
    | succ i =>
      have hi' : i < (rest.length + 2) / 3 := by
        simp only [List.length_cons] at hi
        omega
      simpa [splitBytes, Nat.mul_succ] using ih hi'

theorem expandUpdate_of_ne_nil {m : List Byte} (h : m ≠ []) : expandUpdate m = splitBytes m := by
  cases m with
  | nil => exact absurd rfl h
  | cons b bs => rfl

theorem expandUpdate_updateBytes (m : List Byte) :
    ∃ bss : List (List Byte), (expandUpdate m).map updateBytes = bss.map some ∧ bss.flatten = m := by
  by_cases hm : m = []
  · exact ⟨[[]], by simp [hm, expandUpdate, updateBytes], by simp [hm]⟩
  · rw [expandUpdate_of_ne_nil hm]
    exact splitBytes_updateBytes m

/-- Settles O52: the canonical cut by its recursion, three bytes at a time. -/
theorem longUpdateExpansion : Obligations.LongUpdateExpansion := by
  refine fun m => ⟨expandUpdate_updateBytes m, fun hm => ?count, fun i hi => ?word, rfl⟩
  case count =>
    rw [expandUpdate_of_ne_nil hm]
    exact ⟨splitBytes_length m, update0_notMem_splitBytes m⟩
  case word =>
    have hm : m ≠ [] := by
      rintro rfl
      simp at hi
    rw [expandUpdate_of_ne_nil hm]
    exact splitBytes_getElem? m hi

/-! ### The host's check of DIGEST (rule R39) -/

theorem expandLine_digest_of_length {cfg : Config} {v : BitVec 3} {d : Descriptor} {n : BitVec 22} {len : Nat}
    (hd : variantLookup v = some d) (hlen : outputLength cfg d.fixedOutputBytes n = some len) (m : List Byte) :
    expandLine cfg (.digest v n m) = .ok (digestActions v n m) := by
  simp [expandLine, hd, hlen]

theorem expandLine_digest_of_bad_length {cfg : Config} {v : BitVec 3} {d : Descriptor} {n : BitVec 22}
    (hd : variantLookup v = some d) (hlen : outputLength cfg d.fixedOutputBytes n = none) (m : List Byte) :
    expandLine cfg (.digest v n m) = .error .invalidOutputLength := by
  simp [expandLine, hd, hlen]

theorem expandLine_digest_of_no_entry {cfg : Config} {v : BitVec 3} (n : BitVec 22) (hv : variantLookup v = none)
    (m : List Byte) : expandLine cfg (.digest v n m) = .error .invalidVariant := by
  simp [expandLine, hv]

/-- The ids 0 and 1 are the XOFs, and 2 to 5 the fixed digests. -/
theorem variantLookup_fixedOutput : ∀ v : BitVec 3, ∀ d ∈ variantLookup v, d.fixedOutputBytes = 0 ↔ v.toNat ≤ 1 := by
  decide

/-- Settles O53: the lookup of the id, then the length of rule R64 for an XOF and for a fixed digest. -/
theorem digestHostCheck : Obligations.DigestHostCheck := by
  refine fun v n m => ⟨fun hv hn => ?badLength, fun hv => ?noVariant, fun hv hlow hhigh => ?xof,
    fun hlow hhigh => ?fixed, rfl⟩
  case badLength =>
    obtain ⟨d, hd⟩ := exists_variantLookup (v := v) (by omega)
    have hxof : d.fixedOutputBytes = 0 := (variantLookup_fixedOutput v d hd).2 hv
    exact expandLine_digest_of_bad_length hd (outputLength_eq_none hxof hn) m
  case noVariant => exact expandLine_digest_of_no_entry n (variantLookup_eq_none_iff.2 hv) m
  case xof =>
    obtain ⟨d, hd⟩ := exists_variantLookup (v := v) (by omega)
    have hxof : d.fixedOutputBytes = 0 := (variantLookup_fixedOutput v d hd).2 hv
    exact expandLine_digest_of_length hd (outputLength_eq_some_iff.2 (.inr ⟨hxof, rfl, hlow, hhigh⟩)) m
  case fixed =>
    obtain ⟨d, hd⟩ := exists_variantLookup hhigh
    have hfixed : d.fixedOutputBytes ≠ 0 := fun hzero => by
      have hv := (variantLookup_fixedOutput v d hd).1 hzero
      omega
    exact expandLine_digest_of_length hd (outputLength_of_fixed sbcore1 n hfixed) m

/-! ### The run of a DIGEST (rules R39, R93) -/

/-- The host's part after its next `k` actions are used up and `rest` is left. -/
def State.withHost (s : State) (rest : List HostAction) (k : Nat) : State := { s with pending := rest, cp := s.cp + k }

/-- The step of a command's own word. -/
theorem step_presentCommand {s : State} {i : Instr} {rest : List HostAction} (hp : s.pending = presentCommand i :: rest) :
    step s = exec i (s.withHost rest 1) :=
  stepRunsTheDecodedCommand.1 s (encode i) i rest hp (decodeOfEncode i)

/-- UPDATE words presented in phases 1 and 2 are accepted one after the other. -/
theorem core_run_updates {is : List Instr} {bss : List (List Byte)} (his : is.map updateBytes = bss.map some) {s : State}
    {rest : List HostAction} (hp : s.phase.holdsContext = true) (hin : s.ctx.inRange = true)
    (hpending : s.pending = is.map presentCommand ++ rest) (n : Nat) :
    core.run (is.length + n) s = core.run n ((s.afterUpdates bss).withHost rest is.length) := by
  induction is generalizing bss s with
  | nil =>
    obtain rfl : bss = [] := List.map_eq_nil_iff.1 his.symm
    have hsame : (s.afterUpdates []).withHost rest 0 = s := by
      rw [State.afterUpdates_nil, State.withHost, ← (show s.pending = rest from hpending)]
      rfl
    rw [List.length_nil, Nat.zero_add, hsame]
  | cons i is ih =>
    cases bss with
    | nil => cases his
    | cons bs bss =>
      obtain ⟨hi, hrest⟩ := List.cons.inj his
      have hstep := (step_presentCommand hpending).trans (exec_of_updateBytes hi hp hin)
      have hrun := ih hrest (s := (s.withHost (is.map presentCommand ++ rest) 1).afterUpdates [bs])
        (State.afterUpdates_holdsContext [bs] hp) (State.afterUpdates_inRange [bs] hin) rfl
      have hend : (((s.withHost (is.map presentCommand ++ rest) 1).afterUpdates [bs]).afterUpdates bss).withHost rest
          is.length = (s.afterUpdates (bs :: bss)).withHost rest (is.length + 1) := by
        rw [← State.afterUpdates_cons]
        simp only [State.afterUpdates, State.withHost, Nat.add_assoc, Nat.add_comm 1]
      rw [List.length_cons, Nat.add_right_comm, core_run_next hstep, ← hend]
      exact hrun

/-- The state an accepted START leaves. -/
def State.afterStart (d : Descriptor) (s : State) : State :=
  { s with phase := .started, ctx := Context.bind d, rsps := s.rsps ++ [.ok] }

/-- FINISH's own word completes a run, in phases 1 and 2 with a good length. -/
theorem core_run_finish {n : BitVec 22} {len : Nat} {s : State} {rest : List HostAction} (hp : s.phase.holdsContext = true)
    (hin : s.ctx.inRange = true) (hlen : outputLength sbcore1 s.ctx.fout n = some len)
    (hpending : s.pending = presentCommand (.finish n) :: rest) :
    core.run 1 s = .next ((s.withHost rest 1).afterFinish len) := by
  have hstep := (step_presentCommand hpending).trans (finishWith_of_length (s := s.withHost rest 1) hp hin hlen)
  rw [core_run_next hstep, core_run_zero]

/-- The state at the end of a DIGEST whose words carry the byte sequences `bss`, from phase 0. -/
def State.afterDigest (d : Descriptor) (bss : List (List Byte)) (len : Nat) (s : State) : State :=
  ((s.afterStart d).afterUpdates bss).afterFinish len

/-- START, the UPDATE words and FINISH of a DIGEST, from phase 0. -/
theorem core_run_digest {v : BitVec 3} {d : Descriptor} {n : BitVec 22} {len : Nat} {is : List Instr}
    {bss : List (List Byte)} {s : State} {rest : List HostAction} (hd : variantLookup v = some d)
    (hlen : outputLength sbcore1 d.fixedOutputBytes n = some len) (his : is.map updateBytes = bss.map some)
    (hp : s.phase = .uninitialized)
    (hpending : s.pending = presentCommand (.start v) :: (is.map presentCommand ++ presentCommand (.finish n) :: rest)) :
    ∃ k, core.run (is.length + 1 + 1) s = .next ((s.withHost rest k).afterDigest d bss len) := by
  have hin := Context.bind_inRange (mem_vrom_of_variantLookup hd)
  have hstart := (step_presentCommand hpending).trans (exec_start_of_entry hp hd)
  have hupdates := core_run_updates his (rest := presentCommand (.finish n) :: rest)
    (s := (s.withHost (is.map presentCommand ++ presentCommand (.finish n) :: rest) 1).afterStart d) rfl hin rfl 1
  have hfout : ((Context.bind d).absorbBytes bss.flatten).fout = d.fixedOutputBytes := by simp
  have hfinish := hupdates.trans (core_run_finish (rest := rest) (State.afterUpdates_holdsContext bss rfl)
    (State.afterUpdates_inRange bss hin) (hfout ▸ hlen) rfl)
  refine ⟨1 + is.length + 1, ?_⟩
  rw [core_run_next hstart]
  refine hfinish.trans ?_
  simp only [State.withHost, State.afterDigest, State.afterFinish, State.afterUpdates, State.afterStart, Nat.add_assoc]

theorem State.afterDigest_out {d : Descriptor} (hd : d ∈ vrom) (bss : List (List Byte)) (len : Nat) {s : State}
    (hout : s.out = []) : (s.afterDigest d bss len).out = sponge d bss.flatten len := by
  rw [State.afterDigest, State.afterFinish_out, ← Context.squeeze_eq_sponge hd]
  show s.out ++ _ = _
  rw [hout, List.nil_append]
  rfl

theorem State.afterDigest_rsps (d : Descriptor) (bss : List (List Byte)) (len : Nat) (s : State) :
    (s.afterDigest d bss len).rsps = s.rsps ++ List.replicate (bss.length + 2) .ok := by
  simp [State.afterDigest, State.afterFinish, State.afterUpdates, State.afterStart, List.replicate_succ,
    ← List.replicate_succ']

/-- Settles O51: the pulse leads to phase 0, from where START, the UPDATE words and FINISH emit the sponge. -/
theorem digestIsTheSponge : Obligations.DigestIsTheSponge := by
  intro s v d n m len rest hd hlen hpending
  obtain ⟨bss, hwords, hflat⟩ := expandUpdate_updateBytes m
  have hcount : (expandUpdate m).length = bss.length := by simpa using congrArg List.length hwords
  have hlength : (digestActions v n m).length = (expandUpdate m).length + 1 + 1 + 1 := by simp [digestActions]
  have hreset := step_of_reset (nextAction_of_pending hpending)
  obtain ⟨k, hrun⟩ := core_run_digest (s := s.present.hostReset) (rest := rest) hd hlen hwords rfl
    (by simp [hpending, digestActions])
  have hpulse : core.run (digestActions v n m).length s = core.run ((expandUpdate m).length + 1 + 1) s.present.hostReset := by
    rw [hlength, core_run_next hreset]
  refine ⟨_, hpulse.trans hrun, rfl, ?bytes, rfl, ?responses⟩
  case bytes => rw [State.afterDigest_out (mem_vrom_of_variantLookup hd) bss len rfl, hflat]
  case responses =>
    rw [State.afterDigest_rsps, hlength, hcount]
    rfl

end Sys2Proof.Machine
